-- ==== Sys2Proof/Word.lean ====
section
/-! DEFINITION. The word types of MBE: bytes of frames and PDUs, and the 16-bit values of addresses, quantities and register words (00_scope.md R10, R12). -/

namespace Sys2Proof

/-- One byte of a frame or of a PDU (00_scope.md R12). -/
abbrev Byte := BitVec 8

/-- A 16-bit unsigned value: a register-space address, a quantity, a register word, a transaction id, a CRC (00_scope.md R10). -/
abbrev Word := BitVec 16

/-- `ceil8(q) = (q + 7) div 8` (00_scope.md R11). -/
def ceil8 (q : Nat) : Nat := (q + 7) / 8

end Sys2Proof
end

