-- ==== Sys2Proof/Config.lean ====
section
/-! DEFINITION. The parameters and the configuration of MBE (00_scope.md R9; 10_state.md R23 to R28), and the instance of them that the model's reset state takes. -/

namespace Sys2Proof

/-- The transport of an instance, `P_TRANSPORT` (10_state.md R23). -/
inductive Transport where
  | rtu
  | tcp
deriving DecidableEq, Repr

/-- The four register spaces (20_memory.md R50). -/
inductive Space where
  | coil
  | discreteInput
  | inputRegister
  | holdingRegister
deriving DecidableEq, Repr

/-- The 2-bit code of a space in a descriptor (10_state.md R28, D4). -/
def Space.code : Space → BitVec 2
  | .coil => 0
  | .discreteInput => 1
  | .inputRegister => 2
  | .holdingRegister => 3

/-- Bit spaces hold 1-bit units, word spaces 16-bit units (00_scope.md R17; 20_memory.md R50). -/
def Space.isBit : Space → Bool
  | .coil => true
  | .discreteInput => true
  | .inputRegister => false
  | .holdingRegister => false

/-- What a read of a part of an entry does, `P_SUBRANGE_READ` (20_memory.md R57). -/
inductive SubrangeRead where
  | slice
  | refuse
deriving DecidableEq, Repr

/-- What bytes after the announced MBAP length do, `P_TCP_TRAILING` (40_framing.md R116). -/
inductive TcpTrailing where
  | drop
  | ignore
deriving DecidableEq, Repr

/-- `CFG.limits` (10_state.md R27). The default values are those of the parameters that R9 decides. -/
structure Limits where
  qmaxRdBits   : Word := 2000
  qmaxRdRegs   : Word := 125
  qmaxWrBits   : Word := 1968
  qmaxWrRegs   : Word := 123
  maxPdu       : Nat := 253
  subrangeRead : SubrangeRead := .slice
  tcpTrailing  : TcpTrailing := .drop
deriving DecidableEq, Repr

/-- One entry descriptor of the registration table (10_state.md R28). The units of `init` are naturals,
because the boot checks their width (70_reset_and_hazards.md R191). -/
structure Entry where
  space      : Space
  name       : String
  base       : Word
  count      : Nat
  init       : List Nat
  hasOnRead  : Bool
  hasOnWrite : Bool
deriving DecidableEq, Repr

/-- The configuration registers `CFG` (10_state.md R23 to R28). `unitAllow = none` accepts every unit id. -/
structure Cfg where
  transport   : Transport
  unitAllow   : Option (List Byte)
  maxConn     : Nat
  linkCloseMs : Nat
  limits      : Limits
  regmap      : List Entry
deriving DecidableEq, Repr

/-- The parameters MBE takes as arguments, beside `REGMAP` (00_scope.md R9). `rxTimeout` enters no rule. -/
structure Params where
  transport : Transport
  unitAllow : Option (List Byte)
  maxConn   : Nat
  rxTimeout : Nat
  limits    : Limits
deriving DecidableEq, Repr

/-- `P_LINK_CLOSE_MS`: hardwired (00_scope.md R9; 10_state.md R26). -/
def Config.linkCloseMs : Nat := 5000

/-- `CFG` from the parameters and `REGMAP` (70_reset_and_hazards.md R191). -/
def Cfg.ofParams (p : Params) (rm : List Entry) : Cfg :=
  { transport := p.transport, unitAllow := p.unitAllow, maxConn := p.maxConn,
    linkCloseMs := Config.linkCloseMs, limits := p.limits, regmap := rm }

/-- Map S, the scenario deployment of the source (20_memory.md R73; 95_test_vectors.md part 0). -/
def Config.mapS : List Entry := [
  { space := .coil, name := "DO0..DO3", base := 0x0100, count := 4, init := [0, 0, 0, 0],
    hasOnRead := false, hasOnWrite := true },
  { space := .coil, name := "enable counter 1", base := 0x0300, count := 1, init := [0],
    hasOnRead := false, hasOnWrite := true },
  { space := .inputRegister, name := "counter 1", base := 0x0400, count := 2, init := [0, 0],
    hasOnRead := true, hasOnWrite := false }]

/-- Map T, the test map of 95_test_vectors.md part 0. -/
def Config.mapT : List Entry := [
  { space := .coil, name := "T0", base := 0x0100, count := 4, init := [0, 0, 0, 0],
    hasOnRead := false, hasOnWrite := true },
  { space := .coil, name := "T1", base := 0x0300, count := 1, init := [0],
    hasOnRead := false, hasOnWrite := true },
  { space := .coil, name := "T2", base := 0x0013, count := 10, init := [0, 0, 0, 0, 0, 0, 0, 0, 0, 0],
    hasOnRead := false, hasOnWrite := false },
  { space := .discreteInput, name := "T3", base := 0x0000, count := 8, init := [1, 1, 0, 0, 0, 0, 0, 1],
    hasOnRead := false, hasOnWrite := false },
  { space := .inputRegister, name := "T4", base := 0x0400, count := 2, init := [0, 0],
    hasOnRead := true, hasOnWrite := false },
  { space := .inputRegister, name := "T5", base := 0x0500, count := 3, init := [1, 2, 3],
    hasOnRead := false, hasOnWrite := false },
  { space := .holdingRegister, name := "T6", base := 0x0001, count := 1, init := [0],
    hasOnRead := false, hasOnWrite := false },
  { space := .holdingRegister, name := "T7", base := 0x0200, count := 2, init := [0, 0],
    hasOnRead := false, hasOnWrite := false },
  { space := .holdingRegister, name := "T8", base := 0x0300, count := 3, init := [0, 0, 0],
    hasOnRead := false, hasOnWrite := false }]

/-- The parameters of the reset state: TCP, two slots, every unit id accepted, the limits of R9.
DESIGN CHOICE (log 5), unsafe: the spec leaves P_TRANSPORT, P_UNIT_ALLOW, P_MAX_CONN and P_RX_TIMEOUT OPEN
(D1, D31, D32, D33). This is the start state of program P3 of 95_test_vectors.md. -/
def Config.resetParams : Params :=
  { transport := .tcp, unitAllow := none, maxConn := 2, rxTimeout := 0, limits := {} }

/-- The parameters of the RTU vectors of 95_test_vectors.md: unit address 0x01 only. -/
def Config.rtuParams : Params :=
  { transport := .rtu, unitAllow := some [0x01], maxConn := 1, rxTimeout := 0, limits := {} }

/-- The configuration of the reset state: `Config.resetParams` over map T. DESIGN CHOICE (log 5). -/
def Config.resetCfg : Cfg := Cfg.ofParams Config.resetParams Config.mapT

end Sys2Proof
end

