-- ==== Sys2Proof/Syntax.lean ====
section
/-! DEFINITION. The instructions of MBE: the eight supported function codes, one constructor per row of the opcode table (00_scope.md R2; 30_encoding.md R83), and the exception codes (60_exceptions.md R161). -/

namespace Sys2Proof

/-- A request PDU of a supported function code, its fields pulled out and not yet checked against the limits.
`addr` is the start address (R94: no offset), `qty` the quantity, `value` the value field of a single write as received (R87),
`bc` and `data` the byte count of a multiple write and the bytes that follow it (R88). -/
inductive Instr where
  /-- fc 0x01, format RQ (R84, R141) -/
  | readCoils (addr qty : Word)
  /-- fc 0x02, format RQ (R84, R142) -/
  | readDiscreteInputs (addr qty : Word)
  /-- fc 0x03, format RQ (R84, R144) -/
  | readHoldingRegisters (addr qty : Word)
  /-- fc 0x04, format RQ (R84, R143) -/
  | readInputRegisters (addr qty : Word)
  /-- fc 0x05, format WS (R87, R147) -/
  | writeSingleCoil (addr value : Word)
  /-- fc 0x06, format WS (R87, R148) -/
  | writeSingleRegister (addr value : Word)
  /-- fc 0x0F, format WM (R88, R149) -/
  | writeMultipleCoils (addr qty : Word) (bc : Byte) (data : List Byte)
  /-- fc 0x10, format WM (R88, R150) -/
  | writeMultipleRegisters (addr qty : Word) (bc : Byte) (data : List Byte)
deriving DecidableEq, Repr

/-- The exception codes MBE raises, and no other (60_exceptions.md R161, R162). -/
inductive ExceptionCode where
  | illegalFunction
  | illegalDataAddress
  | illegalDataValue
deriving DecidableEq, Repr

end Sys2Proof
end

