-- ==== Sys2Proof/WellFormed.lean ====
section
/-! DEFINITION. Well-formed instructions (the conditions of 30_encoding.md R84 to R93 on a request's fields) and well-formed configurations (10_state.md R24 to R29). -/

namespace Sys2Proof

/-- `1 ≤ qty ≤ qmax` (30_encoding.md R93). -/
abbrev quantityWf (qty qmax : Word) : Prop := 1 ≤ qty.toNat ∧ qty.toNat ≤ qmax.toNat

/-- An instruction that its own decoder accepts under the limits: quantity in range (R93), single-coil value 0xFF00 or 0x0000 (R92),
byte count the one the quantity asks for and as many data bytes as the byte count says (R88). -/
abbrev Instr.wf (lim : Limits) : Instr → Prop
  | .readCoils _ qty => quantityWf qty lim.qmaxRdBits
  | .readDiscreteInputs _ qty => quantityWf qty lim.qmaxRdBits
  | .readHoldingRegisters _ qty => quantityWf qty lim.qmaxRdRegs
  | .readInputRegisters _ qty => quantityWf qty lim.qmaxRdRegs
  | .writeSingleCoil _ value => value = 0xFF00 ∨ value = 0x0000
  | .writeSingleRegister _ _ => True
  | .writeMultipleCoils _ qty bc data =>
      quantityWf qty lim.qmaxWrBits ∧ bc.toNat = ceil8 qty.toNat ∧ data.length = bc.toNat
  | .writeMultipleRegisters _ qty bc data =>
      quantityWf qty lim.qmaxWrRegs ∧ bc.toNat = 2 * qty.toNat ∧ data.length = bc.toNat

/-- A unit value that fits a space: 0 or 1 in a bit space, below 0x10000 in a word space (20_memory.md R59). -/
abbrev Space.unitWf (sp : Space) (v : Nat) : Prop := if sp.isBit then v ≤ 1 else v ≤ 0xFFFF

/-- One descriptor is well-formed (10_state.md R29). -/
abbrev Entry.wf (D : Entry) : Prop :=
  1 ≤ D.count ∧ D.base.toNat + D.count ≤ 0x10000 ∧ D.init.length = D.count ∧ ∀ v ∈ D.init, D.space.unitWf v

/-- Two entries of one space have disjoint ranges (10_state.md R29). -/
abbrev Entry.disjoint (D E : Entry) : Prop :=
  D.space = E.space → D.base.toNat + D.count ≤ E.base.toNat ∨ E.base.toNat + E.count ≤ D.base.toNat

/-- `CFG.regmap` is well-formed (10_state.md R29). -/
abbrev regmapWf (rm : List Entry) : Prop := (∀ D ∈ rm, D.wf) ∧ rm.Pairwise Entry.disjoint

/-- A configuration the boot can produce: TCP has at least one slot (R25), RTU a non-empty allow-list (R24), the link-close time is hardwired (R26),
the register map is well-formed (R29). -/
abbrev Cfg.wf (c : Cfg) : Prop :=
  (c.transport = .tcp → 1 ≤ c.maxConn) ∧
  (c.transport = .rtu → c.unitAllow ≠ none ∧ c.unitAllow ≠ some []) ∧
  c.linkCloseMs = Config.linkCloseMs ∧ regmapWf c.regmap

end Sys2Proof
end

