-- ==== Sys2Proof/Machine/State.lean ====
section
/-! DEFINITION. The state of MBE as plain data (10_state.md R18 to R43), the inputs and the observation the model carries beside it, the reasons a step can stop, and the reset state. -/

namespace Sys2Proof.Machine

/-! ### The spec's state -/

/-- The register table `TBL`: for each entry, in definition order, its stored units (10_state.md R30). A unit of a bit space is 0 or 1.
The spec has no byte-addressed space (20_memory.md R50): a unit, the smallest addressable element, is stored as one 16-bit value (log 10). -/
abbrev Memory := List (List Word)

/-- A stored unit that a space can hold: one bit in a bit space, any word in a word space (R30). -/
def unitFits (sp : Space) (u : Word) : Bool := !sp.isBit || u.toNat ≤ 1

/-- The canonical form of the table under a register map: exactly one list per entry, exactly `count` units in it, each of the entry's width (R30).
Under one map, equal contents are equal data. -/
def Memory.wf : List Entry → Memory → Bool
  | [], [] => true
  | D :: ds, us :: m => us.length == D.count && us.all (unitFits D.space) && Memory.wf ds m
  | _, _ => false

/-- `DISP.state` (10_state.md R34). -/
inductive DispState where
  | idle
  | awaitRequest
  | validate
  | execute
  | respond
deriving DecidableEq, Repr

/-- The originator of a request (10_state.md R31): the RTU bus, or a TCP connection slot. -/
inductive Peer where
  | bus
  | slot (i : Nat)
deriving DecidableEq, Repr

/-- The request latch `REQ` (10_state.md R31). The default values are those of reset: R43 gives `valid`, log 6 the rest. -/
structure Req where
  valid  : Bool := false
  peer   : Peer := .bus
  unit   : Byte := 0
  tid    : Word := 0
  pdu    : List Byte := []
  fc     : Byte := 0
  addr   : Word := 0
  qty    : Word := 0
  vals   : List Nat := []
  rawVal : Word := 0
deriving DecidableEq, Repr

/-- The liveness of a connection slot (10_state.md R36). -/
inductive Live where
  | listening
  | connected
  | closing
  | closed
deriving DecidableEq, Repr

/-- One Connection, `MUX.slot[i]` (10_state.md R36, R37). -/
structure Slot where
  live         : Live
  gen          : Nat
  lastActivity : Nat
deriving DecidableEq, Repr

/-- The multiplexer state `MUX` (10_state.md R35 to R39). With RTU it does not exist (R40); the model then holds an empty pool (log 7). -/
structure Mux where
  cursor        : Nat
  slots         : List Slot
  inflight      : Option Nat
  linkDownSince : Option Nat
deriving DecidableEq, Repr

/-! ### Inputs (10_state.md R41) and observation (00_scope.md R8): the model's own fields -/

/-- The status of the inspected socket (R41). -/
inductive SockStatus where
  | connected
  | notConnectedClosed
  | notConnectedOpen
deriving DecidableEq, Repr

/-- The result of one receive (R41; 40_framing.md R110, R124). -/
inductive Rx where
  | timeout
  | empty
  | ioError
  | bytes (f : List Byte)
deriving DecidableEq, Repr

/-- The collaborator's answer to an on-read handshake (20_memory.md R62). `blocks` is a hook that never answers (93 I10). -/
inductive ReadAnswer where
  | unchanged
  | refreshed (us : List Word)
  | blocks
deriving DecidableEq, Repr

/-- The collaborator's answer to an on-write handshake (20_memory.md R63): it carries no data. `blocks` is a hook that never completes (93 I10). -/
inductive WriteAnswer where
  | completes
  | blocks
deriving DecidableEq, Repr

/-- The inputs of one poll (R41), and whether a send of this poll succeeds (40_framing.md R117, R129; log 15). `elapsed` is the time since the last event,
so that `now` never decreases (R41; log 2). -/
structure PollInput where
  elapsed : Nat
  linkUp  : Bool
  sock    : SockStatus
  rx      : Rx
  onRead  : ReadAnswer
  onWrite : WriteAnswer
  sendOk  : Bool
deriving DecidableEq, Repr

/-- What the outside does next: the host loop calls a poll, or the watchdog resets the device (60_exceptions.md R183, R184). -/
inductive Event where
  | poll (p : PollInput)
  | hardReset (elapsed : Nat)
deriving DecidableEq, Repr

/-- What MBE does that the outside sees (00_scope.md R8; 60_exceptions.md R184). `send` records whether the transmit succeeded (40_framing.md R129). -/
inductive Action where
  | send (peer : Peer) (frame : List Byte) (ok : Bool)
  | hookRead (space : Space) (addr : Word)
  | hookWrite (space : Space) (addr : Word) (vals : List Nat)
  | forceClose (slot : Nat)
  | replaceSocket (slot : Nat)
deriving DecidableEq, Repr

/-! ### The whole state -/

/-- The state of MBE (R18), then the model's own fields: `pending`, the events to come, oldest first (log 1); `env`, the inputs of the poll under way (log 3);
`now`, the time of the last event in milliseconds (log 2); `trace`, what the outside has seen, oldest first (log 4). -/
structure State where
  cfg     : Cfg
  tbl     : Memory
  disp    : DispState
  req     : Req
  rsp     : List Byte
  mux     : Mux
  pending : List Event
  env     : PollInput
  now     : Nat
  trace   : List Action
deriving DecidableEq, Repr

/-! ### Stops -/

/-- The named faults. -/
inductive Fault where
  /-- A hook that never answers: the poll never completes (93 I10, `stuck`; 70 R195). Raised by `hookRead` and `hookWrite`. Safe. -/
  | hookBlocked
  /-- A descriptor that breaks 10_state.md R29 in its own fields: the boot fails (70 R191, ConfigError). Raised by `bootFrom`. Safe. -/
  | configError
  /-- Two overlapping entries of one space: the boot fails (70 R191; 60 R163, AddressConflict). Raised by `bootFrom`. Safe. -/
  | addressConflict
  /-- Parameters that break 10_state.md R24 or R25: no engine is built from them (log 16). Raised by `bootFrom`. Safe. -/
  | illegalParams
deriving DecidableEq, Repr

/-- The refusals: cases the spec gives no meaning, and instructions with no meaning yet. -/
inductive Refusal where
  /-- A read of a part of an entry while `subrange_read = refuse` (20_memory.md R57, R60: `refuse(SubrangeRead)`). Raised by `tableRead`. Safe. -/
  | subrangeRead
  /-- An instruction that has no meaning in the model yet, by its mnemonic. Raised by `exec` only. Safe. -/
  | notModelled (mnemonic : String)
deriving DecidableEq, Repr

/-! ### Reset -/

/-- A freshly bound listening socket at time `now` (R43). -/
def Slot.fresh (now : Nat) : Slot := { live := .listening, gen := 0, lastActivity := now }

/-- `MUX` after reset: with TCP, `max_conn` fresh slots; with RTU, the empty pool (R40, R43). -/
def Mux.ofCfg (c : Cfg) (now : Nat) : Mux :=
  { cursor := 0
    slots := match c.transport with
      | .tcp => List.replicate c.maxConn (Slot.fresh now)
      | .rtu => []
    inflight := none
    linkDownSince := none }

/-- `TBL` after reset: `TBL[e] = CFG.regmap[e].init` (R43, R44). -/
def Memory.ofMap (rm : List Entry) : Memory := rm.map (fun D => D.init.map (BitVec.ofNat 16))

/-- The inputs held before the first poll, read by nothing (log 3). -/
def PollInput.quiet : PollInput :=
  { elapsed := 0, linkUp := true, sock := .notConnectedOpen, rx := .timeout, onRead := .unchanged, onWrite := .completes, sendOk := true }

/-- Every state element at the value of 10_state.md R43, for any configuration and any time of reset. -/
def State.ofCfg (c : Cfg) (now : Nat) : State :=
  { cfg := c, tbl := Memory.ofMap c.regmap, disp := .idle, req := {}, rsp := [], mux := Mux.ofCfg c now,
    pending := [], env := PollInput.quiet, now := now, trace := [] }

/-- The machine right after reset at time 0, with the parameters of `Config.resetCfg` (R43; log 5). -/
def State.reset : State := State.ofCfg Config.resetCfg 0

end Sys2Proof.Machine
end

