-- ==== Sys2Proof/Machine/Boot.lean ====
section
/-! DEFINITION. The boot sequence and its failures (70_reset_and_hazards.md R191; 60_exceptions.md R163). -/

namespace Sys2Proof.Machine

/-- The parameters can make an engine: at least one TCP slot (10_state.md R25), a non-empty RTU allow-list (R24). -/
def paramsOk (c : Cfg) : Bool :=
  match c.transport with
  | .tcp => 1 ≤ c.maxConn
  | .rtu => match c.unitAllow with
    | none => false
    | some us => !us.isEmpty

/-- The descriptor's own fields are sound (R191, first check). -/
def entryOk (r : Entry) : Bool :=
  !(r.count < 1 || 0x10000 < r.base.toNat + r.count || r.init.length != r.count ||
    r.init.any (fun v => if r.space.isBit then 1 < v else 0xFFFF < v))

/-- The ranges of two descriptors of one space overlap (R191, second check). -/
def overlaps (D E : Entry) : Bool :=
  D.space == E.space && D.base.toNat < E.base.toNat + E.count && E.base.toNat < D.base.toNat + D.count

/-- Register the rows `todo` after the rows `done`: the first failure, if any (R191). -/
def registerRows : List Entry → List Entry → Option Fault
  | _, [] => none
  | registered, r :: todo =>
    if !entryOk r then some .configError
    else if registered.any (overlaps r) then some .addressConflict
    else registerRows (registered ++ [r]) todo

/-- Boot with the configuration `c` at time `now` (R191): the state of 10_state.md R43, or no engine. -/
def bootFrom (c : Cfg) (now : Nat) : Host.Outcome State Fault Refusal :=
  if !paramsOk c then .fault .illegalParams
  else match registerRows [] c.regmap with
    | some f => .fault f
    | none => .next (State.ofCfg c now)

/-- `Boot(params, REGMAP, now)` (R191). -/
def boot (p : Params) (rm : List Entry) (now : Nat) : Host.Outcome State Fault Refusal :=
  bootFrom (Cfg.ofParams p rm) now

/-- The external hard reset, `elapsed` after the last event: the boot runs again on the same parameters and registration table, and every
state element takes its reset value (R190; 10_state.md R44). The outside's own tape and observation stay (log 1, log 4, log 17). -/
def hardReset (elapsed : Nat) (s : State) : Host.Outcome State Fault Refusal :=
  match bootFrom s.cfg (s.now + elapsed) with
  | .next t => .next { t with pending := s.pending, trace := s.trace }
  | .fault f => .fault f
  | .refused r => .refused r

end Sys2Proof.Machine
end

