-- ==== Sys2Proof/Decode.lean ====
section
/-! DEFINITION. The encoding of PDUs (30_encoding.md): byte order, packing, the request decoder, total on any bytes, the request encoder, the assembler forms and the response formats. -/

namespace Sys2Proof

/-! ### Byte order (00_scope.md R12; 20_memory.md R67) -/

/-- `be16(s, i)`: the 16-bit value at bytes `i` and `i+1`, most significant byte first (R12). -/
def be16 (s : List Byte) (i : Nat) : Word := s.getD i 0 ++ s.getD (i + 1) 0

/-- `u16be(v)` (R12). -/
def u16be (v : Word) : List Byte := [v.extractLsb' 8 8, v.extractLsb' 0 8]

/-- `u16le(v)` (R12). -/
def u16le (v : Word) : List Byte := [v.extractLsb' 0 8, v.extractLsb' 8 8]

/-! ### Packing (30_encoding.md R90, R91) -/

/-- One data byte of at most eight bit units, the first in bit 0 (R90). -/
def packByte (bits : List Word) : Byte := BitVec.ofNat 8 (bits.foldr (fun u acc => u.toNat + 2 * acc) 0)

/-- `PackBits` (R90): `ceil8(q)` bytes, the unused high bits of the last one 0. -/
def packBits (bits : List Word) : List Byte :=
  (List.range (ceil8 bits.length)).map (fun j => packByte ((bits.drop (8 * j)).take 8))

/-- `UnpackBits(data, q)` (R90). -/
def unpackBits (data : List Byte) (q : Nat) : List Nat :=
  (List.range q).map (fun k => ((data.getD (k / 8) 0) >>> (k % 8)).toNat % 2)

/-- `PackWords` (R91). -/
def packWords (ws : List Word) : List Byte := ws.flatMap u16be

/-- `UnpackWords(data, q)` (R91). -/
def unpackWords (data : List Byte) (q : Nat) : List Nat :=
  (List.range q).map (fun k => (be16 data (2 * k)).toNat)

/-! ### Function codes and exception codes -/

/-- The function-code byte of an instruction (R83). -/
def Instr.fc : Instr → Byte
  | .readCoils _ _ => 0x01
  | .readDiscreteInputs _ _ => 0x02
  | .readHoldingRegisters _ _ => 0x03
  | .readInputRegisters _ _ => 0x04
  | .writeSingleCoil _ _ => 0x05
  | .writeSingleRegister _ _ => 0x06
  | .writeMultipleCoils _ _ _ _ => 0x0F
  | .writeMultipleRegisters _ _ _ _ => 0x10

/-- The byte of an exception code (60_exceptions.md R161). -/
def ExceptionCode.toByte : ExceptionCode → Byte
  | .illegalFunction => 0x01
  | .illegalDataAddress => 0x02
  | .illegalDataValue => 0x03

/-! ### The request decoder (41_dispatch.md R132) -/

/-- What the decoder reads from a PDU: an instruction, or the exception it raises by name. -/
inductive Decoded where
  | instr (i : Instr)
  | raise (c : ExceptionCode)
deriving DecidableEq, Repr

/-- Formats RQ and WS: exactly 5 bytes (R84, R87). -/
def decodeFixed (mk : Word → Word → Instr) (pdu : List Byte) : Decoded :=
  if pdu.length = 5 then .instr (mk (be16 pdu 1) (be16 pdu 3)) else .raise .illegalDataValue

/-- Format WM: at least 6 bytes; the data are the bytes after the byte count (R88). -/
def decodeMultiple (mk : Word → Word → Byte → List Byte → Instr) (pdu : List Byte) : Decoded :=
  if pdu.length < 6 then .raise .illegalDataValue
  else .instr (mk (be16 pdu 1) (be16 pdu 3) (pdu.getD 5 0) (pdu.drop 6))

/-- The part of `Decode` (R132) that selects the row by byte 0 (R83), checks the fixed length and pulls the fields out. The checks that need
`CFG.limits`, and those of the byte count and the coil value, stand in each instruction's meaning, after its `REQ` fields are written, as R141 to R150
order them (log 11). A PDU of no bytes, which no frame carries, names no supported function code (log 12). -/
def decode : List Byte → Decoded
  | [] => .raise .illegalFunction
  | fc :: rest =>
    if fc = 0x01 then decodeFixed .readCoils (fc :: rest)
    else if fc = 0x02 then decodeFixed .readDiscreteInputs (fc :: rest)
    else if fc = 0x03 then decodeFixed .readHoldingRegisters (fc :: rest)
    else if fc = 0x04 then decodeFixed .readInputRegisters (fc :: rest)
    else if fc = 0x05 then decodeFixed .writeSingleCoil (fc :: rest)
    else if fc = 0x06 then decodeFixed .writeSingleRegister (fc :: rest)
    else if fc = 0x0F then decodeMultiple .writeMultipleCoils (fc :: rest)
    else if fc = 0x10 then decodeMultiple .writeMultipleRegisters (fc :: rest)
    else .raise .illegalFunction

/-! ### The request encoder (R84, R87, R88) -/

/-- The bytes of a request PDU. -/
def encode : Instr → List Byte
  | .readCoils a q => 0x01 :: (u16be a ++ u16be q)
  | .readDiscreteInputs a q => 0x02 :: (u16be a ++ u16be q)
  | .readHoldingRegisters a q => 0x03 :: (u16be a ++ u16be q)
  | .readInputRegisters a q => 0x04 :: (u16be a ++ u16be q)
  | .writeSingleCoil a v => 0x05 :: (u16be a ++ u16be v)
  | .writeSingleRegister a v => 0x06 :: (u16be a ++ u16be v)
  | .writeMultipleCoils a q bc data => 0x0F :: (u16be a ++ u16be q ++ bc :: data)
  | .writeMultipleRegisters a q bc data => 0x10 :: (u16be a ++ u16be q ++ bc :: data)

/-! ### Assembler forms (R101): the four whose operands are not the fields themselves -/

/-- `WriteSingleCoil(address=A, value=B)`. -/
def asmWriteSingleCoil (addr : Word) (value : Bool) : Instr :=
  .writeSingleCoil addr (if value then 0xFF00 else 0x0000)

/-- `WriteMultipleCoils(address=A, values=[b0, ..., bQ-1])`. -/
def asmWriteMultipleCoils (addr : Word) (values : List Bool) : Instr :=
  .writeMultipleCoils addr (BitVec.ofNat 16 values.length) (BitVec.ofNat 8 (ceil8 values.length))
    (packBits (values.map (fun b => if b then 1 else 0)))

/-- `WriteMultipleRegisters(address=A, values=[w0, ..., wQ-1])`. -/
def asmWriteMultipleRegisters (addr : Word) (values : List Word) : Instr :=
  .writeMultipleRegisters addr (BitVec.ofNat 16 values.length) (BitVec.ofNat 8 (2 * values.length)) (packWords values)

/-! ### Response formats -/

/-- Format RB: byte count, then packed bits (R85). -/
def responseBits (fc : Byte) (qty : Word) (bits : List Word) : List Byte :=
  fc :: BitVec.ofNat 8 (ceil8 qty.toNat) :: packBits bits

/-- Format RW: byte count, then words (R86). -/
def responseWords (fc : Byte) (qty : Word) (ws : List Word) : List Byte :=
  fc :: BitVec.ofNat 8 (2 * qty.toNat) :: packWords ws

/-- Formats WS and WMR: function code, address, and the value or quantity echoed (R87, R89). -/
def responseEcho (fc : Byte) (addr v : Word) : List Byte := fc :: (u16be addr ++ u16be v)

/-- Format X: `[fc | 0x80, code]` (R95). -/
def exceptionPdu (fc : Byte) (c : ExceptionCode) : List Byte := [fc ||| 0x80, c.toByte]

/-! ### The opcode table's words -/

/-- Byte `j` of an instruction given as a number: byte 0 is the first byte (PDU byte 0). -/
def tableByte (w j : Nat) : Byte := BitVec.ofNat 8 (w / 256 ^ j)

/-- The least length of a PDU of the function code at its byte 0, its byte count read at byte 5 (R84, R87, R88). -/
def tablePduLength (w : Nat) : Nat :=
  let fc := tableByte w 0
  if fc = 0x0F ∨ fc = 0x10 then 6 + (tableByte w 5).toNat
  else if fc = 0x01 ∨ fc = 0x02 ∨ fc = 0x03 ∨ fc = 0x04 ∨ fc = 0x05 ∨ fc = 0x06 then 5
  else 1

/-- The PDU of an instruction given as a number of `nbits` bits, the bytes above them zero, up to the length its format needs (log 13). -/
def tablePdu (nbits w : Nat) : List Byte :=
  let bits := w % 2 ^ nbits
  (List.range (max ((nbits + 7) / 8) (tablePduLength bits))).map (tableByte bits)

/-- The instruction the decoder reads from an opcode-table word. -/
def decodeTableWord (nbits w : Nat) : Option Instr :=
  match decode (tablePdu nbits w) with
  | .instr i => some i
  | .raise _ => none

end Sys2Proof
end

