-- ==== Sys2Proof/Machine/Operands.lean ====
section
/-! DEFINITION. The operand forms of the eight functions: the space and kind of access a function code reaches, the fields a decoder latches into `REQ`, the quantity and value checks. -/

namespace Sys2Proof.Machine

/-- The kind of access of a function code (20_memory.md R51). -/
inductive AccessKind where
  | read
  | write
deriving DecidableEq, Repr

/-- `FcMap` (41_dispatch.md R137; 20_memory.md R51). -/
def fcMap : Instr → Space × AccessKind
  | .readCoils _ _ => (.coil, .read)
  | .readDiscreteInputs _ _ => (.discreteInput, .read)
  | .readHoldingRegisters _ _ => (.holdingRegister, .read)
  | .readInputRegisters _ _ => (.inputRegister, .read)
  | .writeSingleCoil _ _ => (.coil, .write)
  | .writeSingleRegister _ _ => (.holdingRegister, .write)
  | .writeMultipleCoils _ _ _ _ => (.coil, .write)
  | .writeMultipleRegisters _ _ _ _ => (.holdingRegister, .write)

/-- The start address of a request, `REQ.addr` once decoded. -/
def startAddr : Instr → Word
  | .readCoils a _ => a
  | .readDiscreteInputs a _ => a
  | .readHoldingRegisters a _ => a
  | .readInputRegisters a _ => a
  | .writeSingleCoil a _ => a
  | .writeSingleRegister a _ => a
  | .writeMultipleCoils a _ _ _ => a
  | .writeMultipleRegisters a _ _ _ => a

/-- The number of units a request accesses, `REQ.qty` once decoded: 1 for a single write (30_encoding.md R93). -/
def unitCount : Instr → Nat
  | .readCoils _ q => q.toNat
  | .readDiscreteInputs _ q => q.toNat
  | .readHoldingRegisters _ q => q.toNat
  | .readInputRegisters _ q => q.toNat
  | .writeSingleCoil _ _ => 1
  | .writeSingleRegister _ _ => 1
  | .writeMultipleCoils _ q _ _ => q.toNat
  | .writeMultipleRegisters _ q _ _ => q.toNat

/-- The quantity limit check of a decoder (30_encoding.md R93). -/
def quantityInRange (qty qmax : Word) : Bool := 1 ≤ qty.toNat && qty.toNat ≤ qmax.toNat

/-- `REQ.addr <- addr; REQ.qty <- qty` (42_read_functions.md R141). -/
def latchRange (addr qty : Word) (s : State) : State :=
  { s with req := { s.req with addr := addr, qty := qty } }

/-- `REQ.addr <- addr; REQ.raw_val <- value; REQ.qty <- 1` (43_write_functions.md R147). -/
def latchSingle (addr value : Word) (s : State) : State :=
  { s with req := { s.req with addr := addr, qty := 1, rawVal := value } }

/-- `REQ.vals <- vals`. -/
def latchVals (vals : List Nat) (s : State) : State :=
  { s with req := { s.req with vals := vals } }

/-- The bit a single-coil value field stands for: 0xFF00 is 1, 0x0000 is 0, no other value is accepted (30_encoding.md R92). -/
def coilValue (value : Word) : Option Nat :=
  if value = 0xFF00 then some 1
  else if value = 0x0000 then some 0
  else none

/-- The byte-count and length checks of format WM: `bc` is the count the quantity asks for, and that many data bytes follow (30_encoding.md R88). -/
def byteCountOk (bc : Byte) (want : Nat) (data : List Byte) : Bool :=
  bc.toNat == want && data.length == bc.toNat

end Sys2Proof.Machine
end

