-- ==== Sys2Proof/Machine/Ops.lean ====
section
/-! DEFINITION. The shared operations: taking an exception and returning from one, the dispatcher's moves, address resolution, the read and write primitives with their hooks, and the shape the read and the write functions share. -/

namespace Sys2Proof.Machine

/-! ### Exceptions (60_exceptions.md R160, R172, R173) -/

/-- Taking an exception: the request is abandoned, `RSP <- [REQ.fc | 0x80, code]`, and the dispatcher goes to `Respond` (R160). No state is saved (R172). -/
def takeException (c : ExceptionCode) (s : State) : State :=
  { s with rsp := exceptionPdu s.req.fc c, disp := .respond }

/-- The return to `Idle` after any response: `REQ.valid <- 0; RSP <- empty; MUX.inflight <- none` (R173; 41_dispatch.md R130). -/
def returnToIdle (s : State) : State :=
  { s with req := { s.req with valid := false }, rsp := [], mux := { s.mux with inflight := none }, disp := .idle }

/-! ### The dispatcher's other moves (41_dispatch.md R130) -/

/-- `DISP.state <- d`. -/
def enter (d : DispState) (s : State) : State := { s with disp := d }

/-- `RSP <-` the normal response PDU, and the dispatcher goes to `Respond`. -/
def respond (pdu : List Byte) (s : State) : State := { s with rsp := pdu, disp := .respond }

/-- Append one action to what the outside has seen (00_scope.md R8; log 4). -/
def emit (a : Action) (s : State) : State := { s with trace := s.trace ++ [a] }

/-! ### Address resolution (20_memory.md R52, R53) -/

/-- `SpaceDefined(space)` (R52). -/
def spaceDefined (rm : List Entry) (sp : Space) : Bool := rm.any (fun D => D.space == sp)

/-- The entry is of the space and covers every address of `[addr, addr + n)` (R53). -/
def covers (D : Entry) (sp : Space) (addr n : Nat) : Bool :=
  D.space == sp && D.base.toNat ≤ addr && addr + n ≤ D.base.toNat + D.count

/-- The first covering entry of a list whose first entry has index `e`. -/
def findEntry (sp : Space) (addr n : Nat) : Nat → List Entry → Option (Nat × Entry)
  | _, [] => none
  | e, D :: ds => if covers D sp addr n then some (e, D) else findEntry sp addr n (e + 1) ds

/-- `Resolve(space, addr, n)`, with the descriptor beside its index (R53). -/
def resolve (rm : List Entry) (sp : Space) (addr n : Nat) : Option (Nat × Entry) := findEntry sp addr n 0 rm

/-- `Validate` for a function of space `sp` that accesses `n` units (41_dispatch.md R133): the exception it raises, if any. -/
def validate (sp : Space) (addr : Word) (n : Nat) (s : State) : Option ExceptionCode :=
  if !spaceDefined s.cfg.regmap sp then some .illegalFunction
  else match resolve s.cfg.regmap sp addr.toNat n with
    | none => some .illegalDataAddress
    | some _ => none

/-! ### Hooks (20_memory.md R62, R63) -/

/-- One unit as the space can hold it: bit 0 alone in a bit space. -/
def fitUnit (sp : Space) (u : Word) : Word := if sp.isBit then u &&& 1 else u

/-- An on-read answer brought to the shape of its entry: exactly `count` units of the entry's width. An answer that has this shape stays as it is.
DESIGN CHOICE (log 8), safe: R62 lets a collaborator answer nothing else. -/
def fitUnits (D : Entry) (us : List Word) : List Word :=
  (List.range D.count).map (fun k => fitUnit D.space (us.getD k 0))

/-- `TBL[e] <- us`. -/
def storeUnits (e : Nat) (us : List Word) (s : State) : State := { s with tbl := s.tbl.set e us }

/-- `hook_read(space, addr, e)` (R62), when the entry has the hook: the handshake, then the refresh. `none` when the hook never answers. -/
def hookRead (sp : Space) (addr : Word) (e : Nat) (D : Entry) (s : State) : Option State :=
  if !D.hasOnRead then some s
  else match s.env.onRead with
    | .unchanged => some (emit (.hookRead sp addr) s)
    | .refreshed us => some (storeUnits e (fitUnits D us) (emit (.hookRead sp addr) s))
    | .blocks => none

/-- `hook_write(space, addr, vals, e)` (R63), when the entry has the hook. `none` when the hook never completes. -/
def hookWrite (sp : Space) (addr : Word) (vals : List Nat) (D : Entry) (s : State) : Option State :=
  if !D.hasOnWrite then some s
  else match s.env.onWrite with
    | .completes => some (emit (.hookWrite sp addr vals) s)
    | .blocks => none

/-! ### The read and write primitives (20_memory.md R60, R61) -/

/-- How a primitive ends: with a result, by raising, stuck in a hook, or in a case without meaning. It raises before it has changed anything. -/
inductive Access (α : Type) where
  | done (a : α) (s : State)
  | raise (c : ExceptionCode)
  | stuck (f : Fault)
  | refuse (r : Refusal)

/-- The units `off .. off + n - 1` of `TBL[e]`. -/
def readUnits (e off n : Nat) (s : State) : List Word := ((s.tbl.getD e []).drop off).take n

/-- `TableRead(space, addr, n)` (R60). -/
def tableRead (sp : Space) (addr : Word) (n : Nat) (s : State) : Access (List Word) :=
  match resolve s.cfg.regmap sp addr.toNat n with
  | none => .raise .illegalDataAddress
  | some (e, D) =>
    if (addr ≠ D.base ∨ n ≠ D.count) ∧ s.cfg.limits.subrangeRead = .refuse then .refuse .subrangeRead
    else match hookRead sp addr e D s with
      | none => .stuck .hookBlocked
      | some s' => .done (readUnits e (addr.toNat - D.base.toNat) n s') s'

/-- `TableWrite(space, addr, vals)` (R61). -/
def tableWrite (sp : Space) (addr : Word) (vals : List Nat) (s : State) : Access Unit :=
  match resolve s.cfg.regmap sp addr.toNat vals.length with
  | none => .raise .illegalDataAddress
  | some (e, D) =>
    if vals.length ≠ D.count then .raise .illegalDataValue
    else if sp.isBit ∧ vals.any (fun v => 1 < v) then .raise .illegalDataValue
    else if ¬ sp.isBit ∧ vals.any (fun v => 0xFFFF < v) then .raise .illegalDataValue
    else match hookWrite sp addr vals D (storeUnits e (vals.map (BitVec.ofNat 16)) s) with
      | none => .stuck .hookBlocked
      | some s' => .done () s'

/-! ### The two shapes of a function (42_read_functions.md R140; 43_write_functions.md R146) -/

/-- The outcome of a meaning. -/
abbrev Result := Host.Outcome State Fault Refusal

/-- The end of `Execute` in state `s`: the normal response, or the exception taken from `s`. -/
def conclude {α : Type} (o : Access α) (s : State) (pdu : α → List Byte) : Result :=
  match o with
  | .done a s' => .next (respond (pdu a) s')
  | .raise c => .next (takeException c s)
  | .stuck f => .fault f
  | .refuse r => .refused r

/-- `Validate`, then `Execute` with the access `run` (41_dispatch.md R133, R134). -/
def validateThen {α : Type} (sp : Space) (addr : Word) (n : Nat) (run : State → Access α) (pdu : α → List Byte) (s : State) : Result :=
  match validate sp addr n (enter .validate s) with
  | some c => .next (takeException c (enter .validate s))
  | none => conclude (run (enter .execute s)) (enter .execute s) pdu

/-- The shape of the four read functions (R140): latch the operands, check the quantity, validate, read, respond. -/
def readFunction (sp : Space) (qmax : Word) (pdu : List Word → List Byte) (addr qty : Word) (s : State) : Result :=
  if !quantityInRange qty qmax then .next (takeException .illegalDataValue (latchRange addr qty s))
  else validateThen sp addr qty.toNat (tableRead sp addr qty.toNat) pdu (latchRange addr qty s)

/-- The shape of the four write functions after their operands are decoded (R146): latch the values, validate, write, echo. -/
def writeFunction (sp : Space) (addr : Word) (vals : List Nat) (pdu : List Byte) (s : State) : Result :=
  validateThen sp addr vals.length (tableWrite sp addr vals) (fun _ => pdu) (latchVals vals s)

end Sys2Proof.Machine
end

