-- ==== Sys2Proof/Machine/Read.lean ====
section
/-! DEFINITION. The meanings of the four read functions (42_read_functions.md R140 to R144), run from the state in which the request is latched and the dispatcher is in `AwaitRequest`. -/

namespace Sys2Proof.Machine

/-- `ReadCoils` (R141). -/
def execReadCoils (addr qty : Word) (s : State) : Result :=
  readFunction .coil s.cfg.limits.qmaxRdBits (responseBits 0x01 qty) addr qty s

/-- `ReadDiscreteInputs` (R142). -/
def execReadDiscreteInputs (addr qty : Word) (s : State) : Result :=
  readFunction .discreteInput s.cfg.limits.qmaxRdBits (responseBits 0x02 qty) addr qty s

/-- `ReadHoldingRegisters` (R144). -/
def execReadHoldingRegisters (addr qty : Word) (s : State) : Result :=
  readFunction .holdingRegister s.cfg.limits.qmaxRdRegs (responseWords 0x03 qty) addr qty s

/-- `ReadInputRegisters` (R143). -/
def execReadInputRegisters (addr qty : Word) (s : State) : Result :=
  readFunction .inputRegister s.cfg.limits.qmaxRdRegs (responseWords 0x04 qty) addr qty s

end Sys2Proof.Machine
end

