-- ==== Sys2Proof/Machine/Write.lean ====
section
/-! DEFINITION. The meanings of the four write functions (43_write_functions.md R146 to R150), run from the state in which the request is latched and the dispatcher is in `AwaitRequest`. -/

namespace Sys2Proof.Machine

/-- `WriteSingleCoil` (R147). -/
def execWriteSingleCoil (addr value : Word) (s : State) : Result :=
  match coilValue value with
  | none => .next (takeException .illegalDataValue (latchSingle addr value s))
  | some v => writeFunction .coil addr [v] (responseEcho 0x05 addr value) (latchSingle addr value s)

/-- `WriteSingleRegister` (R148). -/
def execWriteSingleRegister (addr value : Word) (s : State) : Result :=
  writeFunction .holdingRegister addr [value.toNat] (responseEcho 0x06 addr value) (latchSingle addr value s)

/-- `WriteMultipleCoils` (R149). -/
def execWriteMultipleCoils (addr qty : Word) (bc : Byte) (data : List Byte) (s : State) : Result :=
  if !(quantityInRange qty s.cfg.limits.qmaxWrBits && byteCountOk bc (ceil8 qty.toNat) data) then
    .next (takeException .illegalDataValue (latchRange addr qty s))
  else
    writeFunction .coil addr (unpackBits data qty.toNat) (responseEcho 0x0F addr qty) (latchRange addr qty s)

/-- `WriteMultipleRegisters` (R150). -/
def execWriteMultipleRegisters (addr qty : Word) (bc : Byte) (data : List Byte) (s : State) : Result :=
  if !(quantityInRange qty s.cfg.limits.qmaxWrRegs && byteCountOk bc (2 * qty.toNat) data) then
    .next (takeException .illegalDataValue (latchRange addr qty s))
  else
    writeFunction .holdingRegister addr (unpackWords data qty.toNat) (responseEcho 0x10 addr qty) (latchRange addr qty s)

end Sys2Proof.Machine
end

