-- ==== Sys2Proof/Machine/Dispatch.lean ====
section
/-! DEFINITION. The meaning of each instruction, one arm per constructor (41_dispatch.md R132, R134). -/

namespace Sys2Proof.Machine

def exec (i : Instr) (s : State) : Host.Outcome State Fault Refusal :=
  match i with
  | .readCoils addr qty => Sys2Proof.Machine.execReadCoils addr qty s
  | .readDiscreteInputs addr qty => Sys2Proof.Machine.execReadDiscreteInputs addr qty s
  | .readHoldingRegisters addr qty => Sys2Proof.Machine.execReadHoldingRegisters addr qty s
  | .readInputRegisters addr qty => Sys2Proof.Machine.execReadInputRegisters addr qty s
  | .writeSingleCoil addr value => Sys2Proof.Machine.execWriteSingleCoil addr value s
  | .writeSingleRegister addr value => Sys2Proof.Machine.execWriteSingleRegister addr value s
  | .writeMultipleCoils addr qty bc data => Sys2Proof.Machine.execWriteMultipleCoils addr qty bc data s
  | .writeMultipleRegisters addr qty bc data => Sys2Proof.Machine.execWriteMultipleRegisters addr qty bc data s

end Sys2Proof.Machine
end

