-- ==== Sys2Proof/Machine/Flags.lean ====
section
/-! DEFINITION. MBE has no condition codes (10_state.md R22). Its only status-like state is computed here: the liveness record of a slot (R36), its activity time (R37) and the link-down time (R39). -/

namespace Sys2Proof.Machine

/-- Change slot `i` of the pool, and no other. -/
def modifySlot (i : Nat) (f : Slot → Slot) (s : State) : State :=
  { s with mux := { s.mux with slots := s.mux.slots.modify i f } }

/-- `MUX.slot[i].last_activity <- now` (10_state.md R37). -/
def touchSlot (i : Nat) (s : State) : State :=
  modifySlot i (fun c => { c with lastActivity := s.now }) s

/-- `MUX.slot[i].live <- Connected` (40_framing.md R120). -/
def markConnected (i : Nat) (s : State) : State :=
  modifySlot i (fun c => { c with live := .connected }) s

/-- A connected slot seen not connected and not yet confirmed closed is `Closing` (40_framing.md R120, R123). -/
def markClosing (i : Nat) (s : State) : State :=
  modifySlot i (fun c => if c.live = .connected then { c with live := .closing } else c) s

/-- `MUX.link_down_since` after a poll that sees `link_up` at time `now` (10_state.md R39; 40_framing.md R120). -/
def linkDownAfter (linkUp : Bool) (now : Nat) (since : Option Nat) : Option Nat :=
  if linkUp then none
  else match since with
    | none => some now
    | some t => some t

/-- Record the link status of this poll. -/
def noteLink (s : State) : State :=
  { s with mux := { s.mux with linkDownSince := linkDownAfter s.env.linkUp s.now s.mux.linkDownSince } }

/-- The link is down and has been down for at least `CFG.link_close_ms` (40_framing.md R121). -/
def linkExpired (s : State) : Bool :=
  !s.env.linkUp &&
    match s.mux.linkDownSince with
    | none => false
    | some t => s.cfg.linkCloseMs ≤ s.now - t

end Sys2Proof.Machine
end

