-- ==== Sys2Proof/Machine/Framing.lean ====
section
/-! DEFINITION. The transport front ends: CRC-16, the RTU framer, the MBAP framer and the transaction-id matcher (40_framing.md R110 to R119, R127, R129). -/

namespace Sys2Proof.Machine

/-! ### CRC-16 (R111) -/

/-- One of the eight bit steps of the CRC (R111). -/
def crcBit (c : Word) : Word := if c.getLsbD 0 then (c >>> 1) ^^^ 0xA001 else c >>> 1

/-- `n` bit steps. -/
def crcBits : Nat → Word → Word
  | 0, c => c
  | n + 1, c => crcBits n (crcBit c)

/-- One byte of the CRC: exclusive-or into the low byte, then eight bit steps (R111). -/
def crcByte (c : Word) (b : Byte) : Word := crcBits 8 (c ^^^ b.setWidth 16)

/-- `CRC16(s)` (R111). -/
def crc16 (s : List Byte) : Word := s.foldl crcByte 0xFFFF

/-! ### The unit-id filter (R127) -/

/-- `UnitAccepted(u)` (R127). -/
def unitAccepted (c : Cfg) (u : Byte) : Bool :=
  match c.unitAllow with
  | none => true
  | some us => us.contains u

/-- The reasons of a silent drop (R112, R116; 60_exceptions.md R164). No state records them. -/
inductive DropReason where
  | partialFrame
  | crcMismatch
  | oversize
  | foreignUnit
  | wrongProtocol
  | malformedHeader
  | trailingBytes
deriving DecidableEq, Repr

/-! ### RTU (R110 to R115) -/

/-- The PDU of an RTU frame: the frame less its first byte and its last two (30_encoding.md R98, R99). -/
def rtuPdu (f : List Byte) : List Byte := (f.drop 1).take (f.length - 3)

/-- The first check of `ParseRTU` that a candidate frame fails, if any (R112). -/
def rtuDrop (c : Cfg) (f : List Byte) : Option DropReason :=
  if f.length < 4 then some .partialFrame
  else if f.drop (f.length - 2) ≠ u16le (crc16 (f.take (f.length - 2))) then some .crcMismatch
  else if f.length - 3 > c.limits.maxPdu then some .oversize
  else if !unitAccepted c (f.getD 0 0) then some .foreignUnit
  else none

/-- The latch of an accepted RTU frame (R112). -/
def latchRTU (f : List Byte) (s : State) : State :=
  { s with req := { s.req with valid := true, peer := .bus, unit := f.getD 0 0, pdu := rtuPdu f, fc := f.getD 1 0 } }

/-- `ParseRTU(f)` (R112): latch, or drop. -/
def parseRTU (f : List Byte) (s : State) : State :=
  match rtuDrop s.cfg f with
  | some _ => s
  | none => latchRTU f s

/-- The RTU frame of a unit address and a PDU (30_encoding.md R99). -/
def rtuFrame (unit : Byte) (pdu : List Byte) : List Byte := unit :: pdu ++ u16le (crc16 (unit :: pdu))

/-- `SendRTU()` (R113). -/
def sendRTU (s : State) : State := emit (.send .bus (rtuFrame s.req.unit s.rsp) s.env.sendOk) s

/-! ### MBAP (R116 to R119) -/

/-- The PDU of a TCP frame: the `length - 1` bytes after the header (30_encoding.md R98, R100). -/
def mbapPdu (f : List Byte) : List Byte := (f.drop 7).take ((be16 f 4).toNat - 1)

/-- The first check of `ParseMBAP` that a received byte string fails, if any (R116). -/
def mbapDrop (c : Cfg) (f : List Byte) : Option DropReason :=
  if f.length < 7 then some .partialFrame
  else if be16 f 2 ≠ 0 then some .wrongProtocol
  else if (be16 f 4).toNat < 2 then some .malformedHeader
  else if (be16 f 4).toNat - 1 > c.limits.maxPdu then some .oversize
  else if f.length < 6 + (be16 f 4).toNat then some .partialFrame
  else if f.length > 6 + (be16 f 4).toNat ∧ c.limits.tcpTrailing = .drop then some .trailingBytes
  else if !unitAccepted c (f.getD 6 0) then some .foreignUnit
  else none

/-- The latch of an accepted TCP frame on slot `i`: `REQ`, `MUX.inflight` and the slot's activity time (R116). -/
def latchMBAP (f : List Byte) (i : Nat) (s : State) : State :=
  touchSlot i
    { s with
      req := { s.req with valid := true, peer := .slot i, unit := f.getD 6 0, tid := be16 f 0, pdu := mbapPdu f, fc := f.getD 7 0 }
      mux := { s.mux with inflight := some i } }

/-- `ParseMBAP(f, i, now)` (R116): latch, or drop. -/
def parseMBAP (f : List Byte) (i : Nat) (s : State) : State :=
  match mbapDrop s.cfg f with
  | some _ => s
  | none => latchMBAP f i s

/-- The TCP frame of a transaction id, a unit id and a PDU, protocol id 0 (30_encoding.md R100). -/
def mbapFrame (tid : Word) (unit : Byte) (pdu : List Byte) : List Byte :=
  u16be tid ++ u16be 0 ++ u16be (BitVec.ofNat 16 (1 + pdu.length)) ++ unit :: pdu

/-- `SendMBAP(now)`: to slot `MUX.inflight`, whose activity time a successful send writes (R117). A failed send is absorbed (R129).
With no slot in flight, which no run reaches in `Respond`, there is no slot to send to (log 14). -/
def sendMBAP (s : State) : State :=
  match s.mux.inflight with
  | none => s
  | some j =>
    if s.env.sendOk then touchSlot j (emit (.send (.slot j) (mbapFrame s.req.tid s.req.unit s.rsp) true) s)
    else emit (.send (.slot j) (mbapFrame s.req.tid s.req.unit s.rsp) false) s

/-- Transmit `RSP` in the frame of the instance's transport (41_dispatch.md R134). -/
def transmit (s : State) : State :=
  match s.cfg.transport with
  | .rtu => sendRTU s
  | .tcp => sendMBAP s

end Sys2Proof.Machine
end

