-- ==== Sys2Proof/Machine/Multiplexer.lean ====
section
/-! DEFINITION. The connection multiplexer front end, TCP only (40_framing.md R120 to R126), and the front end of either transport. -/

namespace Sys2Proof.Machine

/-- `MUX.cursor <- (MUX.cursor + 1) mod CFG.max_conn` (R120, R125; log 19). -/
def advanceCursor (s : State) : State :=
  { s with mux := { s.mux with cursor := (s.mux.cursor + 1) % s.cfg.maxConn } }

/-- Force-close the socket of slot `i` (R121). -/
def forceCloseSlot (i : Nat) (s : State) : State :=
  modifySlot i (fun c => { c with live := .closed }) (emit (.forceClose i) s)

/-- Replace slot `i` by a freshly bound listening socket (R122). -/
def replaceSlot (i : Nat) (s : State) : State :=
  modifySlot i (fun c => { live := .listening, gen := c.gen + 1, lastActivity := s.now }) (emit (.replaceSocket i) s)

/-- The socket-status cases of slot `i` (R120, R122 to R124). -/
def inspectSlot (i : Nat) (s : State) : State :=
  match s.env.sock with
  | .notConnectedClosed => replaceSlot i s
  | .notConnectedOpen => markClosing i s
  | .connected =>
    match s.env.rx with
    | .timeout => markConnected i s
    | .empty => markConnected i s
    | .ioError => markConnected i s
    | .bytes f => parseMBAP f i (markConnected i s)

/-- `PollTCP` (R120): the slot under the cursor, and no other, is inspected; the cursor has then advanced. -/
def pollTCP (s : State) : State :=
  let i := s.mux.cursor
  let s := noteLink (advanceCursor s)
  if linkExpired s then forceCloseSlot i s else inspectSlot i s

/-- `FrontEndRTU` (R110, R112). -/
def frontEndRTU (s : State) : State :=
  match s.env.rx with
  | .timeout => s
  | .empty => s
  | .ioError => s
  | .bytes f => parseRTU f s

/-- The front end of the instance's transport (41_dispatch.md R134). -/
def frontEnd (s : State) : State :=
  match s.cfg.transport with
  | .rtu => frontEndRTU s
  | .tcp => pollTCP s

end Sys2Proof.Machine
end

