-- ==== Sys2Proof/Machine/Poll.lean ====
section
/-! DEFINITION. One poll of the engine, end to end (41_dispatch.md R130, R134), one event of the input tape, and the event that brings a given PDU to the engine. -/

namespace Sys2Proof.Machine

/-- `Decode`, `Validate` and `Execute` of the latched request, or the exception of a PDU that the decoder rejects (R134). -/
def handle (s : State) : Result :=
  match decode s.req.pdu with
  | .raise c => .next (takeException c s)
  | .instr i => exec i s

/-- `Respond`, then the return to `Idle` (R130). -/
def finishPoll (s : State) : State := returnToIdle (transmit s)

/-- The end of a poll that has a request. -/
def finishHandled (o : Result) : Result :=
  match o with
  | .next t => .next (finishPoll t)
  | .fault f => .fault f
  | .refused r => .refused r

/-- `Poll(inputs)` (R134), the inputs in `env`. -/
def poll (s : State) : Result :=
  let s := frontEnd (enter .awaitRequest s)
  if s.req.valid then finishHandled (handle s) else .next (enter .idle s)

/-- Take the inputs `p` of a poll: `now` moves on by the elapsed time (log 2, log 3). -/
def takeInputs (p : PollInput) (s : State) : State := { s with env := p, now := s.now + p.elapsed }

/-- One event of the tape. -/
def runEvent (ev : Event) (s : State) : Result :=
  match ev with
  | .poll p => poll (takeInputs p s)
  | .hardReset elapsed => hardReset elapsed s

/-- The next event of the tape. With none the host loop makes no call, and MBE stays as it is (log 1). -/
def runNext (s : State) : Result :=
  match s.pending with
  | [] => .next s
  | ev :: rest => runEvent ev { s with pending := rest }

/-- A unit id that the filter accepts (log 13). -/
def acceptedUnit (c : Cfg) : Byte :=
  match c.unitAllow with
  | some (u :: _) => u
  | _ => 0x01

/-- The frame that carries a request PDU to the instance (log 13). -/
def requestFrame (c : Cfg) (pdu : List Byte) : List Byte :=
  match c.transport with
  | .rtu => rtuFrame (acceptedUnit c) pdu
  | .tcp => mbapFrame 0 (acceptedUnit c) pdu

/-- The poll whose one receive delivers a request PDU: link up, inspected socket connected, hooks that answer and change nothing (log 13). -/
def fetchEvent (c : Cfg) (pdu : List Byte) : Event :=
  .poll { PollInput.quiet with sock := .connected, rx := .bytes (requestFrame c pdu) }

end Sys2Proof.Machine
end

