-- ==== Sys2Proof/Machine/Step.lean ====
section
/-! DEFINITION. One step of the machine: one event of the input tape, of which a poll is the usual one (41_dispatch.md R134). -/

namespace Sys2Proof.Machine

/-- One step: the next event of the tape, a whole poll or a hard reset. -/
def step (s : State) : Host.Outcome State Fault Refusal := runNext s

/-- The state with an instruction placed as the PDU that the next poll receives: MBE has no program counter (10_state.md R21), its program is
the sequence of request frames it receives (log 1, log 13). -/
def State.withFetchWord (s : State) (nbits w : Nat) : State :=
  { s with pending := fetchEvent s.cfg (tablePdu nbits w) :: s.pending }

end Sys2Proof.Machine
end

