-- ==== Sys2Proof/Safety.lean ====
section
/-! DEFINITION. The terms of claims about MBE: the invariant every step keeps, what a run needs so that no step stops, and the effects of a request in the spec's words. -/

namespace Sys2Proof.Machine

/-! ### The invariant -/

/-- Between polls nothing is in flight (41_dispatch.md R130, R131; 60_exceptions.md R173). -/
abbrev State.Quiet (s : State) : Prop :=
  s.disp = .idle ∧ s.req.valid = false ∧ s.rsp = [] ∧ s.mux.inflight = none

/-- The pool has the shape its transport gives it, the cursor is in it, and no recorded time is later than the present
(10_state.md R35 to R40; 60_exceptions.md R179). -/
abbrev State.PoolWf (s : State) : Prop :=
  (s.cfg.transport = .tcp → s.mux.slots.length = s.cfg.maxConn ∧ s.mux.cursor < s.cfg.maxConn) ∧
  (s.cfg.transport = .rtu → s.mux.slots = [] ∧ s.mux.cursor = 0) ∧
  (∀ t ∈ s.mux.linkDownSince, t ≤ s.now) ∧
  (∀ c ∈ s.mux.slots, c.lastActivity ≤ s.now)

/-- The invariant: a configuration the boot can produce, a table of exactly the shape that configuration declares, nothing in flight, a sound pool. -/
abbrev State.Inv (s : State) : Prop :=
  s.cfg.wf ∧ Memory.wf s.cfg.regmap s.tbl = true ∧ s.Quiet ∧ s.PoolWf

/-! ### Runs in which no step stops -/

/-- The hooks of a poll answer (60_exceptions.md R184). -/
abbrev PollInput.HooksAnswer (p : PollInput) : Prop := p.onRead ≠ .blocks ∧ p.onWrite ≠ .blocks

/-- The next event of the tape is one whose hooks answer. -/
def State.NextAnswers (s : State) : Prop := ∀ p rest, s.pending = .poll p :: rest → p.HooksAnswer

/-- A step answers a next state. -/
def Safe (o : Result) : Prop := ∃ t, o = .next t

/-! ### The effects of a request -/

/-- A PDU of `n` bytes with function code `fc` is too long or too short for its format: RQ and WS have exactly 5 bytes, WM at least 6
(30_encoding.md R84, R87, R88). -/
abbrev wrongLength (fc : Byte) (n : Nat) : Prop :=
  (fc ∈ ([0x01, 0x02, 0x03, 0x04, 0x05, 0x06] : List Byte) ∧ n ≠ 5) ∨ (fc ∈ ([0x0F, 0x10] : List Byte) ∧ n < 6)

/-- The request ended in exception `c`: `RSP` is the exception PDU, the dispatcher is in `Respond`, and nothing else has changed but the dispatcher's working
fields of `REQ` (60_exceptions.md R160; 41_dispatch.md R136). -/
def Raised (s t : State) (c : ExceptionCode) : Prop :=
  t.rsp = [s.req.fc ||| 0x80, c.toByte] ∧ t.disp = .respond ∧
  t = { s with rsp := t.rsp, disp := t.disp,
               req := { s.req with addr := t.req.addr, qty := t.req.qty, vals := t.req.vals, rawVal := t.req.rawVal } }

/-- `TBL` after the on-read handshake of entry `e` (20_memory.md R62). -/
def tableAfterRead (e : Nat) (D : Entry) (s : State) : Memory :=
  match D.hasOnRead, s.env.onRead with
  | true, .refreshed us => s.tbl.set e (fitUnits D us)
  | _, _ => s.tbl

/-- What the outside has seen after the on-read handshake (R62). -/
def traceAfterRead (sp : Space) (addr : Word) (D : Entry) (s : State) : List Action :=
  if D.hasOnRead then s.trace ++ [.hookRead sp addr] else s.trace

/-- What the outside has seen after the on-write handshake (R63). -/
def traceAfterWrite (sp : Space) (addr : Word) (vals : List Nat) (D : Entry) (s : State) : List Action :=
  if D.hasOnWrite then s.trace ++ [.hookWrite sp addr vals] else s.trace

/-- The units a write stores, `REQ.vals` once decoded (43_write_functions.md R147 to R150). A read writes none. -/
def writtenVals : Instr → List Nat
  | .readCoils _ _ => []
  | .readDiscreteInputs _ _ => []
  | .readHoldingRegisters _ _ => []
  | .readInputRegisters _ _ => []
  | .writeSingleCoil _ v => [if v = 0xFF00 then 1 else 0]
  | .writeSingleRegister _ v => [v.toNat]
  | .writeMultipleCoils _ q _ data => unpackBits data q.toNat
  | .writeMultipleRegisters _ q _ data => unpackWords data q.toNat

/-- The normal response PDU of a request, `us` the units a read returns (30_encoding.md R83, R85 to R89). -/
def normalPdu (i : Instr) (us : List Word) : List Byte :=
  match i with
  | .readCoils _ q => 0x01 :: BitVec.ofNat 8 (ceil8 q.toNat) :: packBits us
  | .readDiscreteInputs _ q => 0x02 :: BitVec.ofNat 8 (ceil8 q.toNat) :: packBits us
  | .readHoldingRegisters _ q => 0x03 :: BitVec.ofNat 8 (2 * q.toNat) :: packWords us
  | .readInputRegisters _ q => 0x04 :: BitVec.ofNat 8 (2 * q.toNat) :: packWords us
  | .writeSingleCoil a v => 0x05 :: (u16be a ++ u16be v)
  | .writeSingleRegister a v => 0x06 :: (u16be a ++ u16be v)
  | .writeMultipleCoils a q _ _ => 0x0F :: (u16be a ++ u16be q)
  | .writeMultipleRegisters a q _ _ => 0x10 :: (u16be a ++ u16be q)

/-- The action is a transmit. -/
def Action.isSend : Action → Bool
  | .send _ _ _ => true
  | _ => false

/-- The action is a hook handshake. -/
def Action.isHook : Action → Bool
  | .hookRead _ _ => true
  | .hookWrite _ _ _ => true
  | _ => false

end Sys2Proof.Machine
end

