-- ==== Sys2Proof/Certificates/Slice0/Obligations.lean ====
section
/-! DEFINITION. The statements about MBE for the provers, from the rules of spec/. Function-code numbers, PDU layouts, quantity limits, the CRC
algorithm and the coil values are the spec's from general knowledge (93_implementation_defined.md part 2); the statements use them as the rules give them. -/

open Sys2Proof Sys2Proof.Machine

/-! ## Reset and boot -/

/-- 10_state.md R43, 70_reset_and_hazards.md R191: what a boot that succeeds leaves in every element to which R43 gives a value. -/
def Obligations.BootLeavesResetValues : Prop :=
  ∀ (p : Params) (rm : List Entry) (now : Nat) (s : State), boot p rm now = .next s →
    s.cfg = { transport := p.transport, unitAllow := p.unitAllow, maxConn := p.maxConn, linkCloseMs := 5000,
              limits := p.limits, regmap := rm } ∧
    s.tbl = rm.map (fun D => D.init.map (BitVec.ofNat 16)) ∧
    s.disp = .idle ∧ s.req.valid = false ∧ s.rsp = [] ∧
    (p.transport = .tcp →
      s.mux.cursor = 0 ∧ s.mux.slots.length = p.maxConn ∧
      (∀ c ∈ s.mux.slots, c.live = .listening ∧ c.gen = 0 ∧ c.lastActivity = now) ∧
      s.mux.inflight = none ∧ s.mux.linkDownSince = none)

/-- 70_reset_and_hazards.md R191, 60_exceptions.md R163: with parameters that 10_state.md R24 and R25 allow, the boot succeeds exactly on the register maps
that R29 calls well-formed, and otherwise the first failing row decides the failure: ConfigError when the row is unsound in its own fields, AddressConflict when it is sound and
overlaps an earlier row of its space. So a map whose rows are each sound and of which two of one space overlap fails with AddressConflict.
That parameters outside R24 and R25 make no engine is the model's choice (log 16) and is not claimed here. -/
def Obligations.BootSucceedsExactlyOnWellFormedMaps : Prop :=
  ∀ (p : Params) (rm : List Entry) (now : Nat),
    (p.transport = .tcp → 1 ≤ p.maxConn) → (p.transport = .rtu → ∃ u us, p.unitAllow = some (u :: us)) →
    ((∃ s, boot p rm now = .next s) ↔ regmapWf rm) ∧
    (∀ (before after : List Entry) (D : Entry), rm = before ++ D :: after → regmapWf before →
      (¬ D.wf → boot p rm now = .fault .configError) ∧
      (D.wf → (∃ E ∈ before, ¬ E.disjoint D) → boot p rm now = .fault .addressConflict)) ∧
    ((∀ D ∈ rm, D.wf) → ¬ rm.Pairwise Entry.disjoint → boot p rm now = .fault .addressConflict)

/-- The reset state meets the invariant. The instance of the OPEN parameters it holds is the model's choice (log 5). -/
def Obligations.ResetMeetsInvariant : Prop := State.Inv State.reset

/-- Every boot that succeeds leaves a state that meets the invariant. -/
def Obligations.BootMeetsInvariant : Prop :=
  ∀ (p : Params) (rm : List Entry) (now : Nat) (s : State), boot p rm now = .next s → s.Inv

/-- 10_state.md R44 and R43: a hard reset brings TBL back to the registered initial values and every other element to its value of R43.
The tape of inputs and the observation, which are the model's own fields (log 1, log 4), stay; that the reset is an event of the tape is the model's choice (log 17),
and so are the values of the fields of REQ other than `valid` (log 6). -/
def Obligations.HardResetReinitialisesTable : Prop :=
  ∀ (s : State) (elapsed : Nat) (rest : List Event), s.cfg.wf → s.pending = .hardReset elapsed :: rest →
    ∃ t, step s = .next t ∧ t.tbl = s.cfg.regmap.map (fun D => D.init.map (BitVec.ofNat 16)) ∧
      t = { State.ofCfg s.cfg (s.now + elapsed) with pending := rest, trace := s.trace }

/-! ## Encoding -/

/-- 30_encoding.md R84, R87, R88: decoding the encoding of an instruction gives it back, whatever its operands. -/
def Obligations.DecodeOfEncodeIsTheInstruction : Prop := ∀ i : Instr, decode (encode i) = .instr i

/-- 30_encoding.md R84, R87, R88: a PDU that decodes to an instruction is that instruction's encoding, so no byte of it is dropped. -/
def Obligations.DecodedPduIsTheEncoding : Prop := ∀ (pdu : List Byte) (i : Instr), decode pdu = .instr i → encode i = pdu

/-- 30_encoding.md R83, R96; 41_dispatch.md R132: the decoder raises IllegalFunction exactly on the function codes other than the eight. -/
def Obligations.DecoderRaisesIllegalFunctionExactlyOnUnsupportedCodes : Prop :=
  ∀ (fc : Byte) (rest : List Byte),
    decode (fc :: rest) = .raise .illegalFunction ↔ fc ∉ ([0x01, 0x02, 0x03, 0x04, 0x05, 0x06, 0x0F, 0x10] : List Byte)

/-- Example PDUs of 42_read_functions.md and 43_write_functions.md decode to the instructions they stand for. -/
def Obligations.ExamplePdusDecode : Prop :=
  decode [0x01, 0x01, 0x00, 0x00, 0x04] = .instr (.readCoils 0x0100 4) ∧
  decode [0x02, 0x00, 0x00, 0x00, 0x08] = .instr (.readDiscreteInputs 0x0000 8) ∧
  decode [0x04, 0x04, 0x00, 0x00, 0x02] = .instr (.readInputRegisters 0x0400 2) ∧
  decode [0x03, 0x00, 0x00, 0x00, 0x01] = .instr (.readHoldingRegisters 0x0000 1) ∧
  decode [0x05, 0x03, 0x00, 0xFF, 0x00] = .instr (.writeSingleCoil 0x0300 0xFF00) ∧
  decode [0x06, 0x00, 0x01, 0x12, 0x34] = .instr (.writeSingleRegister 0x0001 0x1234) ∧
  decode [0x0F, 0x01, 0x00, 0x00, 0x04, 0x01, 0x05] = .instr (.writeMultipleCoils 0x0100 4 1 [0x05]) ∧
  decode [0x10, 0x02, 0x00, 0x00, 0x02, 0x04, 0x12, 0x34, 0x56, 0x78] =
    .instr (.writeMultipleRegisters 0x0200 2 4 [0x12, 0x34, 0x56, 0x78]) ∧
  decode [0x07] = .raise .illegalFunction ∧ decode [0x01, 0x01, 0x00, 0x00] = .raise .illegalDataValue

/-- 30_encoding.md R90: bit units packed least significant first. Unit k is bit k mod 8 of byte k div 8, the unused high bits of a packing are 0, unpacking reads
exactly the bits of the units, whatever the unused ones hold, and undoes packing. -/
def Obligations.BitPackingPlacesUnitKInBitKMod8 : Prop :=
  (∀ bits : List Word, (∀ b ∈ bits, b.toNat ≤ 1) →
    (packBits bits).length = ceil8 bits.length ∧
    (∀ k < bits.length, ((packBits bits).getD (k / 8) 0).getLsbD (k % 8) = ((bits.getD k 0) == 1)) ∧
    (∀ k, bits.length ≤ k → ((packBits bits).getD (k / 8) 0).getLsbD (k % 8) = false) ∧
    unpackBits (packBits bits) bits.length = bits.map BitVec.toNat) ∧
  (∀ (data : List Byte) (q : Nat), (unpackBits data q).length = q ∧
    ∀ k < q, (unpackBits data q).getD k 0 = if (data.getD (k / 8) 0).getLsbD (k % 8) then 1 else 0)

/-- 30_encoding.md R91: words are packed high byte first, and unpacking undoes packing. -/
def Obligations.WordPackingIsBigEndian : Prop :=
  (∀ ws : List Word, (packWords ws).length = 2 * ws.length ∧
    (∀ k < ws.length, (packWords ws).getD (2 * k) 0 = (ws.getD k 0).extractLsb' 8 8 ∧
      (packWords ws).getD (2 * k + 1) 0 = (ws.getD k 0).extractLsb' 0 8) ∧
    unpackWords (packWords ws) ws.length = ws.map BitVec.toNat) ∧
  (∀ (data : List Byte) (q : Nat), (unpackWords data q).length = q ∧
    ∀ k < q, (unpackWords data q).getD k 0 = 256 * (data.getD (2 * k) 0).toNat + (data.getD (2 * k + 1) 0).toNat)

/-- 30_encoding.md R101: the assembler forms of the multiple writes are well-formed requests within the limits of R93, and carry the values written. -/
def Obligations.AssembledMultipleWritesCarryTheirValues : Prop :=
  (∀ (a : Word) (bs : List Bool), 1 ≤ bs.length → bs.length ≤ 1968 →
    (asmWriteMultipleCoils a bs).wf {} ∧ writtenVals (asmWriteMultipleCoils a bs) = bs.map (fun b => if b then 1 else 0)) ∧
  (∀ (a : Word) (ws : List Word), 1 ≤ ws.length → ws.length ≤ 123 →
    (asmWriteMultipleRegisters a ws).wf {} ∧ writtenVals (asmWriteMultipleRegisters a ws) = ws.map BitVec.toNat)

/-! ## Frames -/

/-- The check values of 40_framing.md R111. -/
def Obligations.CrcCheckValues : Prop :=
  crc16 [0x31, 0x32, 0x33, 0x34, 0x35, 0x36, 0x37, 0x38, 0x39] = 0x4B37 ∧ crc16 [] = 0xFFFF ∧ crc16 [0x01] = 0x807E

/-- 40_framing.md R114: the CRC of a whole frame, its two CRC bytes included, is 0. -/
def Obligations.CrcOfAWholeFrameIsZero : Prop := ∀ body : List Byte, crc16 (body ++ u16le (crc16 body)) = 0

/-- 40_framing.md R114, 30_encoding.md R99: a frame built for transmission passes the CRC check of a receiver, which reads back its unit and its PDU. -/
def Obligations.BuiltRtuFramePassesTheReceiverChecks : Prop :=
  ∀ (c : Cfg) (u : Byte) (pdu : List Byte), pdu ≠ [] → pdu.length ≤ c.limits.maxPdu →
    (∀ us, c.unitAllow = some us → u ∈ us) →
    rtuDrop c (rtuFrame u pdu) = none ∧ rtuPdu (rtuFrame u pdu) = pdu ∧ (rtuFrame u pdu).getD 0 0 = u

/-- 30_encoding.md R100, 40_framing.md R116: a TCP frame passes the MBAP checks and is read back field by field. -/
def Obligations.BuiltMbapFramePassesTheReceiverChecks : Prop :=
  ∀ (c : Cfg) (tid : Word) (u : Byte) (pdu : List Byte), pdu ≠ [] → pdu.length ≤ c.limits.maxPdu → pdu.length < 0xFFFF →
    (∀ us, c.unitAllow = some us → u ∈ us) →
    mbapDrop c (mbapFrame tid u pdu) = none ∧ mbapPdu (mbapFrame tid u pdu) = pdu ∧
    be16 (mbapFrame tid u pdu) 0 = tid ∧ (mbapFrame tid u pdu).getD 6 0 = u

/-! ## The dispatcher and a whole step -/

/-- 41_dispatch.md R134, 40_framing.md R112 and R113: with RTU, when the next poll receives a frame that passes every check and whose PDU decodes to `i`, the step is
`i` run from the state in which the request is latched, then the transmit of `RSP` on the bus and the return to `Idle`. -/
def Obligations.RtuStepRunsTheDecodedInstruction : Prop :=
  ∀ (s : State) (p : PollInput) (rest : List Event) (f : List Byte) (i : Instr),
    s.cfg.transport = .rtu → s.pending = .poll p :: rest → p.rx = .bytes f →
    4 ≤ f.length → f.drop (f.length - 2) = u16le (crc16 (f.take (f.length - 2))) → f.length - 3 ≤ s.cfg.limits.maxPdu →
    (∀ us, s.cfg.unitAllow = some us → f.getD 0 0 ∈ us) →
    decode ((f.drop 1).take (f.length - 3)) = .instr i →
    step s =
      match exec i { s with
        pending := rest, env := p, now := s.now + p.elapsed, disp := .awaitRequest,
        req := { s.req with valid := true, peer := .bus, unit := f.getD 0 0, pdu := (f.drop 1).take (f.length - 3), fc := f.getD 1 0 } } with
      | .next u => .next { u with
          disp := .idle, rsp := [], req := { u.req with valid := false }, mux := { u.mux with inflight := none },
          trace := u.trace ++ [.send .bus (f.getD 0 0 :: u.rsp ++ u16le (crc16 (f.getD 0 0 :: u.rsp))) p.sendOk] }
      | .fault r => .fault r
      | .refused r => .refused r

/-- 41_dispatch.md R134, 40_framing.md R116, R117 and R120: with TCP, when the link has not been down for the close time, the inspected socket is connected and the receive
delivers a frame that passes every check and whose PDU decodes to `i`, the step is `i` run from the state in which the request is latched (the cursor advanced, the slot connected and
active now, the slot in flight), then the transmit to that slot and the return to `Idle`. -/
def Obligations.TcpStepRunsTheDecodedInstruction : Prop :=
  ∀ (s : State) (p : PollInput) (rest : List Event) (f : List Byte) (i : Instr),
    s.cfg.transport = .tcp → s.pending = .poll p :: rest →
    (p.linkUp = true ∨ s.now + p.elapsed - s.mux.linkDownSince.getD (s.now + p.elapsed) < s.cfg.linkCloseMs) →
    p.sock = .connected → p.rx = .bytes f →
    7 ≤ f.length → be16 f 2 = 0 → 2 ≤ (be16 f 4).toNat → (be16 f 4).toNat - 1 ≤ s.cfg.limits.maxPdu →
    6 + (be16 f 4).toNat ≤ f.length → (s.cfg.limits.tcpTrailing = .drop → f.length = 6 + (be16 f 4).toNat) →
    (∀ us, s.cfg.unitAllow = some us → f.getD 6 0 ∈ us) →
    decode ((f.drop 7).take ((be16 f 4).toNat - 1)) = .instr i →
    step s =
      match exec i { s with
        pending := rest, env := p, now := s.now + p.elapsed, disp := .awaitRequest,
        req := { s.req with valid := true, peer := .slot s.mux.cursor, unit := f.getD 6 0, tid := be16 f 0,
                            pdu := (f.drop 7).take ((be16 f 4).toNat - 1), fc := f.getD 7 0 },
        mux := { cursor := (s.mux.cursor + 1) % s.cfg.maxConn
                 slots := s.mux.slots.modify s.mux.cursor
                   (fun c => { c with live := .connected, lastActivity := s.now + p.elapsed })
                 inflight := some s.mux.cursor
                 linkDownSince := if p.linkUp then none else some (s.mux.linkDownSince.getD (s.now + p.elapsed)) } } with
      | .next u => .next { u with
          disp := .idle, rsp := [], req := { u.req with valid := false }, mux := { u.mux with inflight := none },
          trace := u.trace ++ [.send (.slot s.mux.cursor)
            (u16be (be16 f 0) ++ [0, 0] ++ u16be (BitVec.ofNat 16 (1 + u.rsp.length)) ++ f.getD 6 0 :: u.rsp) p.sendOk] }
      | .fault r => .fault r
      | .refused r => .refused r

/-- 30_encoding.md R96: a frame that passes every check and whose function code is not one of the eight is answered with `[fc | 0x80, 0x01]`, whatever the rest of the PDU holds,
on either transport, and the table and the hooks are not touched. -/
def Obligations.UnsupportedFunctionCodeIsAnsweredIllegalFunction : Prop :=
  ∀ (s : State) (p : PollInput) (rest : List Event) (f : List Byte) (fc : Byte),
    fc ∉ ([0x01, 0x02, 0x03, 0x04, 0x05, 0x06, 0x0F, 0x10] : List Byte) →
    s.pending = .poll p :: rest → p.rx = .bytes f →
    (s.cfg.transport = .rtu → rtuDrop s.cfg f = none → f.getD 1 0 = fc →
      ∃ t, step s = .next t ∧ t.tbl = s.tbl ∧ t.disp = .idle ∧
        t.trace = s.trace ++ [.send .bus (rtuFrame (f.getD 0 0) [fc ||| 0x80, 0x01]) p.sendOk]) ∧
    (s.cfg.transport = .tcp →
      (p.linkUp = true ∨ s.now + p.elapsed - s.mux.linkDownSince.getD (s.now + p.elapsed) < s.cfg.linkCloseMs) →
      p.sock = .connected → mbapDrop s.cfg f = none → f.getD 7 0 = fc →
      ∃ t, step s = .next t ∧ t.tbl = s.tbl ∧ t.disp = .idle ∧
        t.trace = s.trace ++ [.send (.slot s.mux.cursor) (mbapFrame (be16 f 0) (f.getD 6 0) [fc ||| 0x80, 0x01]) p.sendOk]) ∧
    (fc.msb = true → fc ||| 0x80 = fc)

/-- 60_exceptions.md R164: every dropped frame leaves no trace. Nothing is sent, no hook runs, the table and the request latch are not touched and the dispatcher is in `Idle`.
With RTU the whole state is as it was, but for the inputs taken. With TCP a receive happens on a connected socket whose link has not been down for the close time, and the pool
changes only as 40_framing.md R120 says. The next state of the pool rests on the spec's choices D13, D14 and D22, and the drops for 4 bytes, max_pdu, the RTU unit and length < 2
on its choices D3, D6 and D8 (log 18). -/
def Obligations.DroppedFrameLeavesNoTrace : Prop :=
  ∀ (s : State) (p : PollInput) (rest : List Event), s.Quiet → s.pending = .poll p :: rest →
    (s.cfg.transport = .rtu →
      (p.rx = .timeout ∨ p.rx = .empty ∨ p.rx = .ioError ∨
        ∃ f, p.rx = .bytes f ∧
          (f.length < 4 ∨ f.drop (f.length - 2) ≠ u16le (crc16 (f.take (f.length - 2))) ∨ s.cfg.limits.maxPdu < f.length - 3 ∨
            ∃ us, s.cfg.unitAllow = some us ∧ f.getD 0 0 ∉ us)) →
      step s = .next { s with pending := rest, env := p, now := s.now + p.elapsed }) ∧
    (s.cfg.transport = .tcp →
      (p.linkUp = true ∨ s.now + p.elapsed - s.mux.linkDownSince.getD (s.now + p.elapsed) < s.cfg.linkCloseMs) →
      p.sock = .connected →
      (p.rx = .timeout ∨ p.rx = .empty ∨ p.rx = .ioError ∨
        ∃ f, p.rx = .bytes f ∧
          (f.length < 7 ∨ be16 f 2 ≠ 0 ∨ (be16 f 4).toNat < 2 ∨ s.cfg.limits.maxPdu < (be16 f 4).toNat - 1 ∨
            f.length < 6 + (be16 f 4).toNat ∨ (6 + (be16 f 4).toNat < f.length ∧ s.cfg.limits.tcpTrailing = .drop) ∨
            ∃ us, s.cfg.unitAllow = some us ∧ f.getD 6 0 ∉ us)) →
      step s = .next { s with
        pending := rest, env := p, now := s.now + p.elapsed,
        mux := { cursor := (s.mux.cursor + 1) % s.cfg.maxConn
                 slots := s.mux.slots.modify s.mux.cursor (fun c => { c with live := .connected })
                 inflight := none
                 linkDownSince := if p.linkUp then none else some (s.mux.linkDownSince.getD (s.now + p.elapsed)) } })

/-- 60_exceptions.md R173: after a response, an exception response or a normal one, the dispatcher returns to `Idle`, REQ.valid is clear, RSP is empty and MUX.inflight is none.
It holds after every poll that finds nothing in flight. -/
def Obligations.EveryPollReturnsToIdle : Prop :=
  ∀ (s t : State) (p : PollInput) (rest : List Event), s.Quiet → s.pending = .poll p :: rest → step s = .next t →
    t.disp = .idle ∧ t.req.valid = false ∧ t.rsp = [] ∧ t.mux.inflight = none

/-- 41_dispatch.md R131, 20_memory.md R76, 10_state.md D10: a poll adds to what the outside has seen at most one hook handshake and at most one transmit, and no hook after a transmit:
the response is sent after the hook of its request. -/
def Obligations.PollSendsAtMostOneResponseAfterAtMostOneHook : Prop :=
  ∀ (s t : State) (p : PollInput) (rest : List Event), s.Quiet → s.pending = .poll p :: rest → step s = .next t →
    ∃ before after, t.trace = s.trace ++ before ++ after ∧
      (∀ a ∈ before, a.isSend = false) ∧ before.length ≤ 1 ∧ after.length ≤ 1 ∧ (∀ a ∈ after, a.isSend = true)

/-- 60_exceptions.md R167: no step stops the engine, as long as the collaborator answers its hooks (R184) and sub-range reads have their meaning (20_memory.md R57, `slice`). -/
def Obligations.NothingStopsTheEngine : Prop :=
  ∀ s : State, s.cfg.wf → s.cfg.limits.subrangeRead = .slice → s.NextAnswers → ∃ t, step s = .next t

/-- Every step keeps the invariant: the configuration, the table's shape (10_state.md R29, R30), nothing in flight between polls (41_dispatch.md R130), the pool (R35 to R40). -/
def Obligations.StepKeepsInvariant : Prop := ∀ s t : State, s.Inv → step s = .next t → t.Inv

/-- 10_state.md R18, R23 to R28: the configuration is read-only while the engine runs; a hard reset takes the same one. -/
def Obligations.ConfigurationIsReadOnly : Prop := ∀ s t : State, step s = .next t → t.cfg = s.cfg

/-- 40_framing.md R118: every frame a TCP poll sends goes to the slot the request arrived on and carries the transaction id of the frame it answers.
That it repeats the unit id and has protocol id 0 is the spec's choice D19 of R117 (log 18). -/
def Obligations.TcpReplyCarriesTheRequestsTransactionId : Prop :=
  ∀ (s t : State) (p : PollInput) (rest : List Event) (peer : Peer) (g : List Byte) (ok : Bool),
    s.cfg.transport = .tcp → s.Quiet → s.pending = .poll p :: rest → step s = .next t →
    .send peer g ok ∈ t.trace.drop s.trace.length →
    ∃ f, p.rx = .bytes f ∧ mbapDrop s.cfg f = none ∧ peer = .slot s.mux.cursor ∧ ok = p.sendOk ∧
      be16 g 0 = be16 f 0 ∧ be16 g 2 = 0 ∧ g.getD 6 0 = f.getD 6 0

/-- 40_framing.md R113, R115: every frame an RTU poll sends goes to the bus, repeats the request's unit address and ends in its CRC. -/
def Obligations.RtuReplyGoesToTheBusWithTheRequestsUnit : Prop :=
  ∀ (s t : State) (p : PollInput) (rest : List Event) (peer : Peer) (g : List Byte) (ok : Bool),
    s.cfg.transport = .rtu → s.Quiet → s.pending = .poll p :: rest → step s = .next t →
    .send peer g ok ∈ t.trace.drop s.trace.length →
    ∃ f, p.rx = .bytes f ∧ rtuDrop s.cfg f = none ∧ peer = .bus ∧ ok = p.sendOk ∧ g.getD 0 0 = f.getD 0 0 ∧
      g.drop (g.length - 2) = u16le (crc16 (g.take (g.length - 2)))

/-! ## The multiplexer -/

/-- 40_framing.md R125: after k consecutive TCP polls the cursor has advanced by k modulo max_conn. -/
def Obligations.CursorAdvancesOncePerPoll : Prop :=
  ∀ (k : Nat) (s t : State), s.cfg.transport = .tcp → s.Inv → k ≤ s.pending.length →
    (∀ ev ∈ s.pending.take k, ∃ p, ev = .poll p) → Sys2Proof.core.run k s = .next t →
    t.mux.cursor = (s.mux.cursor + k) % s.cfg.maxConn

/-- 40_framing.md R126: a TCP poll, recovery steps included, writes no slot but the inspected one. -/
def Obligations.PollWritesOnlyTheInspectedSlot : Prop :=
  ∀ (s t : State) (p : PollInput) (rest : List Event), s.cfg.transport = .tcp → s.Quiet → s.pending = .poll p :: rest →
    step s = .next t → ∀ j, j ≠ s.mux.cursor → t.mux.slots[j]? = s.mux.slots[j]?

/-- 40_framing.md R121, 60_exceptions.md R178: a poll that sees the link down, when it has been seen down for at least link_close_ms, force-closes the inspected socket, whatever its
status, reports no request and starts no receive; the down time counts from the first poll that saw the link down. -/
def Obligations.LinkDownForTheCloseTimeForceCloses : Prop :=
  ∀ (s : State) (p : PollInput) (rest : List Event) (since : Nat), s.cfg.transport = .tcp → s.Quiet → s.pending = .poll p :: rest →
    p.linkUp = false → s.mux.linkDownSince = some since → s.cfg.linkCloseMs ≤ s.now + p.elapsed - since →
    step s = .next { s with
      pending := rest, env := p, now := s.now + p.elapsed,
      mux := { s.mux with
               cursor := (s.mux.cursor + 1) % s.cfg.maxConn
               slots := s.mux.slots.modify s.mux.cursor (fun c => { c with live := .closed }) }
      trace := s.trace ++ [.forceClose s.mux.cursor] }

/-- 40_framing.md R122: a socket that reports not-connected and confirmed closed is replaced by a freshly listening one, and the poll reports no request; so is a force-closed one, at the first
poll of it that sees the link up. A link that is down, but not for the close time, makes no difference (R121).
The cursor, gen, last_activity and link_down_since are as R120 writes them, with the spec's choices D13, D14 and D22 (log 18). -/
def Obligations.ConfirmedClosedSocketIsReplaced : Prop :=
  ∀ (s : State) (p : PollInput) (rest : List Event), s.cfg.transport = .tcp → s.Quiet → s.pending = .poll p :: rest →
    (p.linkUp = true ∨ s.now + p.elapsed - s.mux.linkDownSince.getD (s.now + p.elapsed) < s.cfg.linkCloseMs) →
    p.sock = .notConnectedClosed →
    step s = .next { s with
      pending := rest, env := p, now := s.now + p.elapsed,
      mux := { s.mux with
               cursor := (s.mux.cursor + 1) % s.cfg.maxConn
               slots := s.mux.slots.modify s.mux.cursor
                 (fun c => { live := .listening, gen := c.gen + 1, lastActivity := s.now + p.elapsed })
               linkDownSince := if p.linkUp then none else some (s.mux.linkDownSince.getD (s.now + p.elapsed)) }
      trace := s.trace ++ [.replaceSocket s.mux.cursor] }

/-- 40_framing.md R123, R120: a socket not connected and not yet confirmed closed is left alone for this cycle, but for its record: a connected one is then closing; nothing is sent or replaced.
A listening socket with no client is in this case too. The cursor, the record and link_down_since are as R120 writes them, with the spec's choices D13, D14 and D22 (log 18). -/
def Obligations.NotYetClosedSocketReportsNoRequest : Prop :=
  ∀ (s : State) (p : PollInput) (rest : List Event), s.cfg.transport = .tcp → s.Quiet → s.pending = .poll p :: rest →
    (p.linkUp = true ∨ s.now + p.elapsed - s.mux.linkDownSince.getD (s.now + p.elapsed) < s.cfg.linkCloseMs) →
    p.sock = .notConnectedOpen →
    step s = .next { s with
      pending := rest, env := p, now := s.now + p.elapsed,
      mux := { s.mux with
               cursor := (s.mux.cursor + 1) % s.cfg.maxConn
               slots := s.mux.slots.modify s.mux.cursor (fun c => if c.live = .connected then { c with live := .closing } else c)
               linkDownSince := if p.linkUp then none else some (s.mux.linkDownSince.getD (s.now + p.elapsed)) } }

/-! ## Address resolution and the table -/

/-- 20_memory.md R53: Resolve gives the index of the first entry of the space that covers every address of the range, or none when no single entry does. -/
def Obligations.ResolveGivesACoveringEntryOrNone : Prop :=
  ∀ (rm : List Entry) (sp : Space) (addr n : Nat), 1 ≤ n →
    (∀ e D, resolve rm sp addr n = some (e, D) →
      rm[e]? = some D ∧ D.space = sp ∧ (∀ a, addr ≤ a → a < addr + n → D.base.toNat ≤ a ∧ a < D.base.toNat + D.count) ∧
      ∀ j < e, ∀ E, rm[j]? = some E → E.space = sp → ¬ (E.base.toNat ≤ addr ∧ addr + n ≤ E.base.toNat + E.count)) ∧
    (resolve rm sp addr n = none ↔
      ∀ D ∈ rm, D.space = sp → ∃ a, addr ≤ a ∧ a < addr + n ∧ ¬ (D.base.toNat ≤ a ∧ a < D.base.toNat + D.count))

/-- 20_memory.md R54, R55: on a well-formed map an entry that covers the range is the one Resolve gives, whatever the order of the rows, and a range that runs past 0xFFFF resolves to none. -/
def Obligations.ResolveIsUniqueAndStaysInTheSpace : Prop :=
  ∀ (rm : List Entry), regmapWf rm → ∀ (sp : Space) (addr n : Nat), 1 ≤ n →
    (∀ e D, rm[e]? = some D → D.space = sp → D.base.toNat ≤ addr → addr + n ≤ D.base.toNat + D.count →
      resolve rm sp addr n = some (e, D)) ∧
    (0x10000 < addr + n → resolve rm sp addr n = none)

/-- 20_memory.md R50, R51, R65, R66: a request changes no entry of a space its function code does not reach. No function code writes DiscreteInput or InputRegister: with a hook that answers
`unchanged`, or none, their entries stay as they are. -/
def Obligations.RequestChangesOnlyItsOwnSpace : Prop :=
  ∀ (i : Instr) (s t : State) (e : Nat) (D : Entry), exec i s = .next t → s.cfg.regmap[e]? = some D →
    (D.space ≠ (fcMap i).1 → t.tbl[e]? = s.tbl[e]?) ∧
    (D.space = .discreteInput ∨ D.space = .inputRegister → D.hasOnRead = false ∨ s.env.onRead = .unchanged →
      t.tbl[e]? = s.tbl[e]?)

/-- The frame of every instruction (20_memory.md R71, R76; 10_state.md R20): all entries but the resolved one keep their values, and so do the configuration, the pool, the time, the inputs and the fields of
REQ that the framer wrote. A read changes the table only through the refresh of its on-read hook. -/
def Obligations.RequestFrame : Prop :=
  ∀ (i : Instr) (s t : State), exec i s = .next t →
    t.cfg = s.cfg ∧ t.mux = s.mux ∧ t.pending = s.pending ∧ t.env = s.env ∧ t.now = s.now ∧
    t.req.valid = s.req.valid ∧ t.req.peer = s.req.peer ∧ t.req.unit = s.req.unit ∧ t.req.tid = s.req.tid ∧
    t.req.pdu = s.req.pdu ∧ t.req.fc = s.req.fc ∧ t.tbl.length = s.tbl.length ∧
    (∀ j, (∀ e D, resolve s.cfg.regmap (fcMap i).1 (startAddr i).toNat (unitCount i) = some (e, D) → j ≠ e) →
      t.tbl[j]? = s.tbl[j]?) ∧
    ((fcMap i).2 = .read → (∀ us, s.env.onRead ≠ .refreshed us) → t.tbl = s.tbl)

/-! ## Exceptions -/

/-- 41_dispatch.md R135, checks (3) to (6), for every instruction: the first failing check decides the exception, and an exception changes nothing else (60_exceptions.md R160).
Of check (3) this is what comes after the length of the format, which the decoder checks first: quantity, byte count, data length and coil value. The length itself, and check (2), are
WrongLengthPduIsAnsweredIllegalDataValue and UnsupportedFunctionCodeIsAnsweredIllegalFunction. -/
def Obligations.FirstFailingCheckDecidesTheException : Prop :=
  ∀ (i : Instr) (s : State),
    (¬ i.wf s.cfg.limits → ∃ t, exec i s = .next t ∧ Raised s t .illegalDataValue) ∧
    (i.wf s.cfg.limits → (∀ D ∈ s.cfg.regmap, D.space ≠ (fcMap i).1) →
      ∃ t, exec i s = .next t ∧ Raised s t .illegalFunction) ∧
    (i.wf s.cfg.limits → (∃ D ∈ s.cfg.regmap, D.space = (fcMap i).1) →
      resolve s.cfg.regmap (fcMap i).1 (startAddr i).toNat (unitCount i) = none →
      ∃ t, exec i s = .next t ∧ Raised s t .illegalDataAddress) ∧
    (∀ e D, i.wf s.cfg.limits → (fcMap i).2 = .write →
      resolve s.cfg.regmap (fcMap i).1 (startAddr i).toNat (unitCount i) = some (e, D) → unitCount i ≠ D.count →
      ∃ t, exec i s = .next t ∧ Raised s t .illegalDataValue)

/-- 41_dispatch.md R136: a request answered with an exception PDU, told by bit 7 of its first byte (30_encoding.md R82), leaves the table as it is and has invoked no hook. -/
def Obligations.ExceptionIsPrecise : Prop :=
  ∀ (i : Instr) (s t : State) (b : Byte) (r : List Byte), exec i s = .next t → t.rsp = b :: r → b.msb = true →
    t.tbl = s.tbl ∧ t.trace = s.trace

/-- 60_exceptions.md R162: the exception codes MBE sends are 1, 2 and 3, and no other, whatever request is latched. An exception response is told by bit 7 of its first byte (30_encoding.md R82). -/
def Obligations.ExceptionCodesAreOneTwoAndThree : Prop :=
  ∀ (s t : State) (b : Byte) (r : List Byte), handle s = .next t → t.rsp = b :: r → b.msb = true →
    r = [0x01] ∨ r = [0x02] ∨ r = [0x03]

/-- 30_encoding.md R82: the response to a latched request repeats its function code when it is normal and ORs 0x80 into it when it is an exception, and bit 7 of its first byte tells the two apart:
a function code that has a normal response has bit 7 clear. -/
def Obligations.ResponseBeginsWithTheFunctionCode : Prop :=
  ∀ (s t : State) (fc : Byte) (rest : List Byte), s.req.pdu = fc :: rest → s.req.fc = fc → handle s = .next t →
    (fc.msb = false ∧ ∃ r, t.rsp = fc :: r) ∨ ((fc ||| 0x80).msb = true ∧ ∃ c : ExceptionCode, t.rsp = [fc ||| 0x80, c.toByte])

/-- 30_encoding.md R98: with the limits of 00_scope.md R9 no response PDU is longer than 252 bytes, and one of 252 bytes is possible only for the full read quantities. -/
def Obligations.ResponseIsAtMost252Bytes : Prop :=
  ∀ (i : Instr) (s t : State), s.cfg.limits.qmaxRdBits = 2000 → s.cfg.limits.qmaxRdRegs = 125 → exec i s = .next t →
    t.rsp.length ≤ 252 ∧ (t.rsp.length = 252 → (fcMap i).2 = .read ∧ (1993 ≤ unitCount i ∨ unitCount i = 125))

/-! ## Read functions -/

/-- 42_read_functions.md R141: ReadCoils completes and answers the packed bits of the range, read after the on-read hook. -/
def Obligations.ReadCoilsAnswersTheStoredBits : Prop :=
  ∀ (s : State) (a q : Word) (e : Nat) (D : Entry), 1 ≤ q.toNat → q.toNat ≤ s.cfg.limits.qmaxRdBits.toNat →
    resolve s.cfg.regmap .coil a.toNat q.toNat = some (e, D) →
    (s.cfg.limits.subrangeRead = .slice ∨ (a = D.base ∧ q.toNat = D.count)) →
    (D.hasOnRead = true → s.env.onRead ≠ .blocks) →
    exec (.readCoils a q) s = .next { s with
      req := { s.req with addr := a, qty := q }, disp := .respond,
      tbl := tableAfterRead e D s, trace := traceAfterRead .coil a D s,
      rsp := 0x01 :: BitVec.ofNat 8 (ceil8 q.toNat) ::
        packBits (((tableAfterRead e D s).getD e []).drop (a.toNat - D.base.toNat) |>.take q.toNat) }

/-- 42_read_functions.md R142: ReadDiscreteInputs, as ReadCoils, on the DiscreteInput space. -/
def Obligations.ReadDiscreteInputsAnswersTheStoredBits : Prop :=
  ∀ (s : State) (a q : Word) (e : Nat) (D : Entry), 1 ≤ q.toNat → q.toNat ≤ s.cfg.limits.qmaxRdBits.toNat →
    resolve s.cfg.regmap .discreteInput a.toNat q.toNat = some (e, D) →
    (s.cfg.limits.subrangeRead = .slice ∨ (a = D.base ∧ q.toNat = D.count)) →
    (D.hasOnRead = true → s.env.onRead ≠ .blocks) →
    exec (.readDiscreteInputs a q) s = .next { s with
      req := { s.req with addr := a, qty := q }, disp := .respond,
      tbl := tableAfterRead e D s, trace := traceAfterRead .discreteInput a D s,
      rsp := 0x02 :: BitVec.ofNat 8 (ceil8 q.toNat) ::
        packBits (((tableAfterRead e D s).getD e []).drop (a.toNat - D.base.toNat) |>.take q.toNat) }

/-- 42_read_functions.md R143: ReadInputRegisters completes and answers the words of the range, most significant byte first, read after the on-read hook. -/
def Obligations.ReadInputRegistersAnswersTheStoredWords : Prop :=
  ∀ (s : State) (a q : Word) (e : Nat) (D : Entry), 1 ≤ q.toNat → q.toNat ≤ s.cfg.limits.qmaxRdRegs.toNat →
    resolve s.cfg.regmap .inputRegister a.toNat q.toNat = some (e, D) →
    (s.cfg.limits.subrangeRead = .slice ∨ (a = D.base ∧ q.toNat = D.count)) →
    (D.hasOnRead = true → s.env.onRead ≠ .blocks) →
    exec (.readInputRegisters a q) s = .next { s with
      req := { s.req with addr := a, qty := q }, disp := .respond,
      tbl := tableAfterRead e D s, trace := traceAfterRead .inputRegister a D s,
      rsp := 0x04 :: BitVec.ofNat 8 (2 * q.toNat) ::
        packWords (((tableAfterRead e D s).getD e []).drop (a.toNat - D.base.toNat) |>.take q.toNat) }

/-- 42_read_functions.md R144: ReadHoldingRegisters, as ReadInputRegisters, on the HoldingRegister space. -/
def Obligations.ReadHoldingRegistersAnswersTheStoredWords : Prop :=
  ∀ (s : State) (a q : Word) (e : Nat) (D : Entry), 1 ≤ q.toNat → q.toNat ≤ s.cfg.limits.qmaxRdRegs.toNat →
    resolve s.cfg.regmap .holdingRegister a.toNat q.toNat = some (e, D) →
    (s.cfg.limits.subrangeRead = .slice ∨ (a = D.base ∧ q.toNat = D.count)) →
    (D.hasOnRead = true → s.env.onRead ≠ .blocks) →
    exec (.readHoldingRegisters a q) s = .next { s with
      req := { s.req with addr := a, qty := q }, disp := .respond,
      tbl := tableAfterRead e D s, trace := traceAfterRead .holdingRegister a D s,
      rsp := 0x03 :: BitVec.ofNat 8 (2 * q.toNat) ::
        packWords (((tableAfterRead e D s).getD e []).drop (a.toNat - D.base.toNat) |>.take q.toNat) }

/-- 42_read_functions.md R145: a read of a whole word entry of length 1, 2 or 3, whose hook, if any, answers `unchanged`, returns its words in stored order, most significant byte of each first. -/
def Obligations.WholeEntryReadReturnsWordsInStoredOrder : Prop :=
  ∀ (s : State) (sp : Space) (i : Instr) (e : Nat) (D : Entry) (ws : List Word),
    (sp = .holdingRegister ∧ i = .readHoldingRegisters D.base (BitVec.ofNat 16 D.count) ∨
     sp = .inputRegister ∧ i = .readInputRegisters D.base (BitVec.ofNat 16 D.count)) →
    3 ≤ s.cfg.limits.qmaxRdRegs.toNat → 1 ≤ D.count → D.count ≤ 3 →
    resolve s.cfg.regmap sp D.base.toNat D.count = some (e, D) → s.tbl[e]? = some ws → ws.length = D.count →
    (D.hasOnRead = true → s.env.onRead = .unchanged) →
    ∃ t, exec i s = .next t ∧ t.tbl = s.tbl ∧
      t.rsp.drop 2 = ws.flatMap (fun w => [w.extractLsb' 8 8, w.extractLsb' 0 8])

/-- 20_memory.md R57, R60: with `subrange_read = refuse` a read that lies inside an entry but is not the whole entry has no meaning, and no hook runs: the model refuses it by that name. -/
def Obligations.SubrangeReadIsRefusedWhenSelected : Prop :=
  ∀ (i : Instr) (s : State) (e : Nat) (D : Entry), (fcMap i).2 = .read → i.wf s.cfg.limits →
    s.cfg.limits.subrangeRead = .refuse →
    resolve s.cfg.regmap (fcMap i).1 (startAddr i).toNat (unitCount i) = some (e, D) →
    (startAddr i ≠ D.base ∨ unitCount i ≠ D.count) → exec i s = .refused .subrangeRead

/-! ## Write functions -/

/-- 43_write_functions.md R147: WriteSingleCoil stores the bit in its one-unit entry, then runs the on-write hook, then echoes the request. -/
def Obligations.WriteSingleCoilStoresTheBitAndEchoes : Prop :=
  ∀ (s : State) (a v : Word) (e : Nat) (D : Entry), v = 0xFF00 ∨ v = 0x0000 →
    resolve s.cfg.regmap .coil a.toNat 1 = some (e, D) → D.count = 1 →
    (D.hasOnWrite = true → s.env.onWrite ≠ .blocks) →
    exec (.writeSingleCoil a v) s = .next { s with
      req := { s.req with addr := a, qty := 1, rawVal := v, vals := [if v = 0xFF00 then 1 else 0] }, disp := .respond,
      tbl := s.tbl.set e [if v = 0xFF00 then 1 else 0],
      trace := traceAfterWrite .coil a [if v = 0xFF00 then 1 else 0] D s,
      rsp := [0x05, a.extractLsb' 8 8, a.extractLsb' 0 8, v.extractLsb' 8 8, v.extractLsb' 0 8] }

/-- 43_write_functions.md R148: WriteSingleRegister stores the word, whatever its value, in its one-unit entry, then runs the on-write hook, then echoes the request. -/
def Obligations.WriteSingleRegisterStoresTheWordAndEchoes : Prop :=
  ∀ (s : State) (a v : Word) (e : Nat) (D : Entry),
    resolve s.cfg.regmap .holdingRegister a.toNat 1 = some (e, D) → D.count = 1 →
    (D.hasOnWrite = true → s.env.onWrite ≠ .blocks) →
    exec (.writeSingleRegister a v) s = .next { s with
      req := { s.req with addr := a, qty := 1, rawVal := v, vals := [v.toNat] }, disp := .respond,
      tbl := s.tbl.set e [v], trace := traceAfterWrite .holdingRegister a [v.toNat] D s,
      rsp := [0x06, a.extractLsb' 8 8, a.extractLsb' 0 8, v.extractLsb' 8 8, v.extractLsb' 0 8] }

/-- 43_write_functions.md R149: WriteMultipleCoils stores all its bits in the whole entry at once, then runs the on-write hook, then echoes address and quantity. -/
def Obligations.WriteMultipleCoilsStoresAllBitsAndEchoes : Prop :=
  ∀ (s : State) (a q : Word) (bc : Byte) (data : List Byte) (e : Nat) (D : Entry),
    1 ≤ q.toNat → q.toNat ≤ s.cfg.limits.qmaxWrBits.toNat → bc.toNat = ceil8 q.toNat → data.length = bc.toNat →
    resolve s.cfg.regmap .coil a.toNat q.toNat = some (e, D) → D.count = q.toNat →
    (D.hasOnWrite = true → s.env.onWrite ≠ .blocks) →
    exec (.writeMultipleCoils a q bc data) s = .next { s with
      req := { s.req with addr := a, qty := q, vals := unpackBits data q.toNat }, disp := .respond,
      tbl := s.tbl.set e ((unpackBits data q.toNat).map (BitVec.ofNat 16)),
      trace := traceAfterWrite .coil a (unpackBits data q.toNat) D s,
      rsp := [0x0F, a.extractLsb' 8 8, a.extractLsb' 0 8, q.extractLsb' 8 8, q.extractLsb' 0 8] }

/-- 43_write_functions.md R150: WriteMultipleRegisters stores all its words in the whole entry at once, then runs the on-write hook, then echoes address and quantity. -/
def Obligations.WriteMultipleRegistersStoresAllWordsAndEchoes : Prop :=
  ∀ (s : State) (a q : Word) (bc : Byte) (data : List Byte) (e : Nat) (D : Entry),
    1 ≤ q.toNat → q.toNat ≤ s.cfg.limits.qmaxWrRegs.toNat → bc.toNat = 2 * q.toNat → data.length = bc.toNat →
    resolve s.cfg.regmap .holdingRegister a.toNat q.toNat = some (e, D) → D.count = q.toNat →
    (D.hasOnWrite = true → s.env.onWrite ≠ .blocks) →
    exec (.writeMultipleRegisters a q bc data) s = .next { s with
      req := { s.req with addr := a, qty := q, vals := unpackWords data q.toNat }, disp := .respond,
      tbl := s.tbl.set e ((unpackWords data q.toNat).map (BitVec.ofNat 16)),
      trace := traceAfterWrite .holdingRegister a (unpackWords data q.toNat) D s,
      rsp := [0x10, a.extractLsb' 8 8, a.extractLsb' 0 8, q.extractLsb' 8 8, q.extractLsb' 0 8] }

/-- 20_memory.md R58: a write of n units that resolves to an entry of another count fails with IllegalDataValue and changes nothing; and one of the entry's count starts at its base. -/
def Obligations.WriteSucceedsOnlyOnAWholeEntry : Prop :=
  ∀ (i : Instr) (s : State) (e : Nat) (D : Entry), (fcMap i).2 = .write →
    resolve s.cfg.regmap (fcMap i).1 (startAddr i).toNat (unitCount i) = some (e, D) →
    (unitCount i ≠ D.count → ∃ t, exec i s = .next t ∧ Raised s t .illegalDataValue) ∧
    (unitCount i = D.count → startAddr i = D.base)

/-- 43_write_functions.md R152, 20_memory.md R65: after a write to a whole word entry, a read of the entry whose on-read hook, if any, answers `unchanged` answers the words written; the state between the two requests may differ in everything but the table and the configuration. -/
def Obligations.ReadAfterWriteReturnsTheWrittenWords : Prop :=
  ∀ (s t s' : State) (e : Nat) (D : Entry) (ws : List Word), (D.hasOnRead = true → s'.env.onRead = .unchanged) → Memory.wf s.cfg.regmap s.tbl = true →
    1 ≤ ws.length → ws.length ≤ 123 → s.cfg.limits.qmaxWrRegs = 123 → s.cfg.limits.qmaxRdRegs = 125 →
    resolve s.cfg.regmap .holdingRegister D.base.toNat ws.length = some (e, D) → D.count = ws.length →
    exec (asmWriteMultipleRegisters D.base ws) s = .next t → s'.tbl = t.tbl → s'.cfg = s.cfg →
    ∃ t', exec (.readHoldingRegisters D.base (BitVec.ofNat 16 ws.length)) s' = .next t' ∧
      t'.rsp = 0x03 :: BitVec.ofNat 8 (2 * ws.length) :: packWords ws

/-- 43_write_functions.md R152: the same for coils. -/
def Obligations.ReadAfterWriteReturnsTheWrittenCoils : Prop :=
  ∀ (s t s' : State) (e : Nat) (D : Entry) (bs : List Bool), (D.hasOnRead = true → s'.env.onRead = .unchanged) → Memory.wf s.cfg.regmap s.tbl = true →
    1 ≤ bs.length → bs.length ≤ 1968 → s.cfg.limits.qmaxWrBits = 1968 → s.cfg.limits.qmaxRdBits = 2000 →
    resolve s.cfg.regmap .coil D.base.toNat bs.length = some (e, D) → D.count = bs.length →
    exec (asmWriteMultipleCoils D.base bs) s = .next t → s'.tbl = t.tbl → s'.cfg = s.cfg →
    ∃ t', exec (.readCoils D.base (BitVec.ofNat 16 bs.length)) s' = .next t' ∧
      t'.rsp = 0x01 :: BitVec.ofNat 8 (ceil8 bs.length) :: packBits (bs.map (fun b => if b then 1 else 0))

/-! ## Hooks and isolation -/

/-- 20_memory.md R62, R76: a read whose entry has an on-read hook presents the space and the request's start address once, and a new value of the entry's shape replaces the whole entry before the response is built. -/
def Obligations.OnReadRefreshReplacesTheWholeEntry : Prop :=
  ∀ (i : Instr) (s : State) (e : Nat) (D : Entry) (us : List Word), (fcMap i).2 = .read → i.wf s.cfg.limits →
    resolve s.cfg.regmap (fcMap i).1 (startAddr i).toNat (unitCount i) = some (e, D) → e < s.tbl.length →
    s.cfg.limits.subrangeRead = .slice → D.hasOnRead = true → s.env.onRead = .refreshed us → us.length = D.count →
    (∀ u ∈ us, D.space.isBit = true → u.toNat ≤ 1) →
    ∃ t, exec i s = .next t ∧ t.tbl[e]? = some us ∧ t.trace = s.trace ++ [.hookRead (fcMap i).1 (startAddr i)] ∧
      t.rsp = normalPdu i ((us.drop ((startAddr i).toNat - D.base.toNat)).take (unitCount i))

/-- 93_implementation_defined.md I10, 70_reset_and_hazards.md R195: a hook that never answers leaves the poll stuck; the model stops by that name (log 9). -/
def Obligations.HookThatNeverAnswersIsStuck : Prop :=
  ∀ (i : Instr) (s : State) (e : Nat) (D : Entry), i.wf s.cfg.limits →
    resolve s.cfg.regmap (fcMap i).1 (startAddr i).toNat (unitCount i) = some (e, D) →
    ((fcMap i).2 = .read → D.hasOnRead = true → s.env.onRead = .blocks → s.cfg.limits.subrangeRead = .slice →
      exec i s = .fault .hookBlocked) ∧
    ((fcMap i).2 = .write → unitCount i = D.count → D.hasOnWrite = true → s.env.onWrite = .blocks →
      exec i s = .fault .hookBlocked)

/-- 20_memory.md R79, 41_dispatch.md R139, 10_state.md R20: the meaning of a request depends only on its own bytes, on CFG, on TBL and on the answers of its hooks; peer, unit, transaction id, pool, time, and what was sent or asked before change neither the response nor the table. -/
def Obligations.RequestMeaningDependsOnlyOnItsBytesConfigurationAndTable : Prop :=
  ∀ (i : Instr) (s s' t : State), s'.cfg = s.cfg → s'.tbl = s.tbl → s'.req.fc = s.req.fc →
    s'.env.onRead = s.env.onRead → s'.env.onWrite = s.env.onWrite → exec i s = .next t →
    ∃ t', exec i s' = .next t' ∧ t'.rsp = t.rsp ∧ t'.tbl = t.tbl ∧
      t'.trace.drop s'.trace.length = t.trace.drop s.trace.length

/-! ## Malformed PDUs -/

/-- 30_encoding.md R84, R87, R88; 41_dispatch.md R132, R135; 90_conflicts.md C6: the decoder raises IllegalDataValue exactly on a PDU of a supported function code whose length is wrong for its
format, and an accepted frame with such a PDU is not dropped: on either transport it is answered with exactly one frame, which carries `[fc | 0x80, 0x03]`, and the table and the hooks are not
touched. That the lengths are exact is the spec's choice D28, D29 (log 18); that the decoder checks no more than this is the model's split of Decode (log 11). -/
def Obligations.WrongLengthPduIsAnsweredIllegalDataValue : Prop :=
  (∀ (fc : Byte) (rest : List Byte), decode (fc :: rest) = .raise .illegalDataValue ↔ wrongLength fc (fc :: rest).length) ∧
  ∀ (s : State) (p : PollInput) (rest : List Event) (f : List Byte) (fc : Byte), s.pending = .poll p :: rest → p.rx = .bytes f →
    (s.cfg.transport = .rtu → rtuDrop s.cfg f = none → f.getD 1 0 = fc → wrongLength fc (f.length - 3) →
      ∃ t, step s = .next t ∧ t.tbl = s.tbl ∧ t.disp = .idle ∧
        t.trace = s.trace ++ [.send .bus (rtuFrame (f.getD 0 0) [fc ||| 0x80, 0x03]) p.sendOk]) ∧
    (s.cfg.transport = .tcp →
      (p.linkUp = true ∨ s.now + p.elapsed - s.mux.linkDownSince.getD (s.now + p.elapsed) < s.cfg.linkCloseMs) →
      p.sock = .connected → mbapDrop s.cfg f = none → f.getD 7 0 = fc → wrongLength fc ((be16 f 4).toNat - 1) →
      ∃ t, step s = .next t ∧ t.tbl = s.tbl ∧ t.disp = .idle ∧
        t.trace = s.trace ++ [.send (.slot s.mux.cursor) (mbapFrame (be16 f 0) (f.getD 6 0) [fc ||| 0x80, 0x03]) p.sendOk])
end

