-- ==== Sys2Proof/Laws/Boot.lean ====
section
/-! SUPPORT. What the boot can do: its row checks as the conditions of R29, and the configurations from which it makes an engine. -/

namespace Sys2Proof.Machine

/-- The first check of a row is R29's condition on it (70_reset_and_hazards.md R191). -/
theorem entryOk_iff (D : Entry) : entryOk D = true ↔ D.wf := by
  unfold entryOk Entry.wf Space.unitWf
  cases D.space.isBit <;> simp <;> constructor
  · rintro ⟨⟨⟨h1, h2⟩, h3⟩, h4⟩; exact ⟨by omega, by omega, h3, h4⟩
  · rintro ⟨h1, h2, h3, h4⟩; exact ⟨⟨⟨by omega, by omega⟩, h3⟩, h4⟩
  · rintro ⟨⟨⟨h1, h2⟩, h3⟩, h4⟩; exact ⟨by omega, by omega, h3, h4⟩
  · rintro ⟨h1, h2, h3, h4⟩; exact ⟨⟨⟨by omega, by omega⟩, h3⟩, h4⟩

/-- The second check of a row against a registered one (70_reset_and_hazards.md R191). -/
theorem overlaps_eq_false {D E : Entry} : overlaps D E = false ↔ Entry.disjoint E D := by
  unfold Entry.disjoint
  rw [← Bool.not_eq_true]
  simp only [overlaps, Bool.and_eq_true, beq_iff_eq, decide_eq_true_eq, not_and, not_lt, and_imp]
  constructor
  · intro h hs
    by_cases hlt : D.base.toNat < E.base.toNat + E.count
    · exact .inr (h hs.symm hlt)
    · exact .inl (by omega)
  · intro h hs hlt
    have := h hs.symm
    omega

/-- Registering the rows `todo` after the rows `registered` succeeds exactly when they are sound and overlap nothing. -/
theorem registerRows_none {registered todo : List Entry} :
    registerRows registered todo = none ↔
      (∀ D ∈ todo, D.wf) ∧ todo.Pairwise Entry.disjoint ∧ ∀ E ∈ registered, ∀ D ∈ todo, Entry.disjoint E D := by
  induction todo generalizing registered with
  | nil => simp [registerRows]
  | cons r todo ih =>
    rw [registerRows]
    by_cases hr : entryOk r = true
    swap
    · rw [if_pos (by simpa using hr)]
      constructor
      · intro h; cases h
      · intro h; exact absurd ((entryOk_iff r).mpr (h.1 r (by simp))) hr
    rw [if_neg (by simp [hr])]
    by_cases ho : registered.any (overlaps r) = true
    · rw [if_pos ho]
      constructor
      · intro h; cases h
      · rintro ⟨-, -, h⟩
        obtain ⟨E, hE, hov⟩ := List.any_eq_true.mp ho
        rw [overlaps_eq_false.mpr (h E hE r (by simp))] at hov
        cases hov
    · rw [if_neg ho, ih]
      have hdis : ∀ E ∈ registered, Entry.disjoint E r := by
        intro E hE
        rw [Bool.not_eq_true, List.any_eq_false] at ho
        exact overlaps_eq_false.mp (by simpa using ho E hE)
      constructor
      · rintro ⟨h1, h2, h3⟩
        refine ⟨?_, List.pairwise_cons.mpr ⟨fun D hD => h3 r (by simp) D hD, h2⟩, ?_⟩
        · intro D hD
          rcases List.mem_cons.mp hD with rfl | hD
          · exact (entryOk_iff D).mp hr
          · exact h1 D hD
        · intro E hE D hD
          rcases List.mem_cons.mp hD with rfl | hD
          · exact hdis E hE
          · exact h3 E (by simp [hE]) D hD
      · rintro ⟨h1, h2, h3⟩
        rw [List.pairwise_cons] at h2
        refine ⟨fun D hD => h1 D (by simp [hD]), h2.2, ?_⟩
        intro E hE D hD
        rcases List.mem_append.mp hE with hE | hE
        · exact h3 E hE D (by simp [hD])
        · obtain rfl : E = r := by simpa using hE
          exact h2.1 D hD

/-- Rows that register are followed by the rest: the first failing row decides (70_reset_and_hazards.md R191). -/
theorem registerRows_append {registered before after : List Entry} (h : registerRows registered before = none) :
    registerRows registered (before ++ after) = registerRows (registered ++ before) after := by
  induction before generalizing registered with
  | nil => simp
  | cons r before ih =>
    rw [registerRows] at h
    rw [List.cons_append, registerRows]
    split_ifs at h ⊢
    rw [ih h]
    simp

/-- A failure among sound rows is an overlap (60_exceptions.md R163). -/
theorem registerRows_sound {registered todo : List Entry} (h : ∀ D ∈ todo, D.wf) :
    registerRows registered todo = none ∨ registerRows registered todo = some .addressConflict := by
  induction todo generalizing registered with
  | nil => exact .inl rfl
  | cons r todo ih =>
    rw [registerRows, if_neg (by simp [(entryOk_iff r).mpr (h r (by simp))])]
    by_cases ho : registered.any (overlaps r) = true
    · exact .inr (if_pos ho)
    · rw [if_neg ho]
      exact ih (fun D hD => h D (by simp [hD]))

/-- A well-formed configuration boots to the state of 10_state.md R43. -/
theorem bootFrom_of_wf {c : Cfg} (h : c.wf) (now : Nat) : bootFrom c now = .next (State.ofCfg c now) := by
  obtain ⟨h1, h2, -, h4, h5⟩ := h
  have hp : paramsOk c = true := by
    unfold paramsOk
    cases ht : c.transport with
    | tcp => simpa using h1 ht
    | rtu =>
      obtain ⟨g1, g2⟩ := h2 ht
      cases hu : c.unitAllow with
      | none => exact absurd hu g1
      | some us =>
        cases us with
        | nil => exact absurd hu g2
        | cons u us => rfl
  have hr : registerRows [] c.regmap = none := registerRows_none.mpr ⟨h4, h5, by simp⟩
  simp [bootFrom, hp, hr]

/-- A boot that succeeds has the state of 10_state.md R43. -/
theorem bootFrom_next {c : Cfg} {now : Nat} {s : State} (h : bootFrom c now = .next s) :
    paramsOk c = true ∧ regmapWf c.regmap ∧ s = State.ofCfg c now := by
  unfold bootFrom at h
  cases hp : paramsOk c with
  | false => simp [hp] at h
  | true =>
    cases hr : registerRows [] c.regmap with
    | some f => simp [hp, hr] at h
    | none =>
      have hm := registerRows_none.mp hr
      exact ⟨rfl, ⟨hm.1, hm.2.1⟩, by simpa [hp, hr] using h.symm⟩

end Sys2Proof.Machine
end

