-- ==== Sys2Proof/Laws/Encoding.lean ====
section
/-! SUPPORT. The small laws of the encoding: the two bytes of a word, the shapes a format check admits, the decoder as one case split, and the lengths of packed data. -/

namespace Sys2Proof

/-! ### The two bytes of a word -/

/-- A word is its high byte before its low byte. -/
theorem word_bytes (v : Word) : v.extractLsb' 8 8 ++ v.extractLsb' 0 8 = v := by
  apply BitVec.eq_of_getLsbD_eq
  intro i hi
  refine (BitVec.getLsbD_append ..).trans ?_
  by_cases h : i < 8
  · simp [h]
  · simp [h, show i - 8 < 8 by omega, show 8 + (i - 8) = i by omega]

theorem append_high (a b : Byte) : BitVec.extractLsb' 8 8 (a ++ b : Word) = a := by
  apply BitVec.eq_of_getLsbD_eq
  intro i hi
  refine (BitVec.getLsbD_extractLsb' ..).trans ?_
  have : (a ++ b : Word).getLsbD (8 + i) = _ := BitVec.getLsbD_append ..
  simp [hi, this]

theorem append_low (a b : Byte) : BitVec.extractLsb' 0 8 (a ++ b : Word) = b := by
  apply BitVec.eq_of_getLsbD_eq
  intro i hi
  refine (BitVec.getLsbD_extractLsb' ..).trans ?_
  have : (a ++ b : Word).getLsbD i = _ := BitVec.getLsbD_append ..
  simp [hi, this]

@[simp] theorem u16be_length (v : Word) : (u16be v).length = 2 := rfl

@[simp] theorem u16le_length (v : Word) : (u16le v).length = 2 := rfl

/-- The word two bytes make up. -/
theorem be16_cons (a b : Byte) (r : List Byte) : be16 (a :: b :: r) 0 = a ++ b := rfl

theorem be16_succ (a : Byte) (r : List Byte) (i : Nat) : be16 (a :: r) (i + 1) = be16 r i := by simp [be16]

/-- Reading a word back where it was written (00_scope.md R12). -/
theorem be16_u16be (v : Word) (r : List Byte) : be16 (u16be v ++ r) 0 = v := word_bytes v

/-- A word's bytes are the two it was read from. -/
theorem u16be_append (a b : Byte) : u16be (a ++ b) = [a, b] := by simp only [u16be, append_high, append_low]

/-! ### The decoder -/

/-- The decoder on a PDU with a function code, as one case split (30_encoding.md R83). -/
theorem decode_cons (fc : Byte) (rest : List Byte) :
    decode (fc :: rest) =
      if fc = 0x01 then decodeFixed .readCoils (fc :: rest)
      else if fc = 0x02 then decodeFixed .readDiscreteInputs (fc :: rest)
      else if fc = 0x03 then decodeFixed .readHoldingRegisters (fc :: rest)
      else if fc = 0x04 then decodeFixed .readInputRegisters (fc :: rest)
      else if fc = 0x05 then decodeFixed .writeSingleCoil (fc :: rest)
      else if fc = 0x06 then decodeFixed .writeSingleRegister (fc :: rest)
      else if fc = 0x0F then decodeMultiple .writeMultipleCoils (fc :: rest)
      else if fc = 0x10 then decodeMultiple .writeMultipleRegisters (fc :: rest)
      else .raise .illegalFunction := rfl

/-- What a PDU of a fixed-length format is (30_encoding.md R84, R87). -/
theorem decodeFixed_instr {mk : Word → Word → Instr} {pdu : List Byte} {i : Instr} (h : decodeFixed mk pdu = .instr i) :
    ∃ fc a b c d, pdu = [fc, a, b, c, d] ∧ i = mk (a ++ b) (c ++ d) := by
  unfold decodeFixed at h
  split at h
  · rename_i hl
    match pdu, hl with
    | [fc, a, b, c, d], _ => exact ⟨fc, a, b, c, d, rfl, by simpa [be16] using h.symm⟩
  · cases h

/-- What a PDU of the multiple-write format is (30_encoding.md R88). -/
theorem decodeMultiple_instr {mk : Word → Word → Byte → List Byte → Instr} {pdu : List Byte} {i : Instr}
    (h : decodeMultiple mk pdu = .instr i) :
    ∃ fc a b c d bc data, pdu = fc :: a :: b :: c :: d :: bc :: data ∧ i = mk (a ++ b) (c ++ d) bc data := by
  unfold decodeMultiple at h
  split at h
  · cases h
  · rename_i hl
    match pdu, hl with
    | fc :: a :: b :: c :: d :: bc :: data, _ => exact ⟨fc, a, b, c, d, bc, data, rfl, by simpa [be16] using h.symm⟩
    | [], hl => simp at hl
    | [_], hl => simp at hl
    | [_, _], hl => simp at hl
    | [_, _, _], hl => simp at hl
    | [_, _, _, _], hl => simp at hl
    | [_, _, _, _, _], hl => simp at hl

/-! ### Function codes -/

/-- Every supported function code has bit 7 clear (30_encoding.md R82). -/
theorem Instr.fc_msb (i : Instr) : i.fc.msb = false := by
  cases i <;> simp [Instr.fc] <;> decide

/-- The first byte of an exception PDU has bit 7 set (30_encoding.md R82, R95). -/
theorem exception_fc_msb (fc : Byte) : (fc ||| 0x80).msb = true := by
  rw [BitVec.msb_or, show (0x80 : Byte).msb = true by decide, Bool.or_true]

/-! ### Lengths of packed data -/

@[simp] theorem packBits_length (bits : List Word) : (packBits bits).length = ceil8 bits.length := by simp [packBits]

@[simp] theorem packWords_length (ws : List Word) : (packWords ws).length = 2 * ws.length := by
  induction ws with
  | nil => rfl
  | cons w ws ih =>
    have h : packWords (w :: ws) = u16be w ++ packWords ws := by simp [packWords]
    rw [h, List.length_append, ih, u16be_length, List.length_cons]
    omega

end Sys2Proof
end

