-- ==== Sys2Proof/Laws/State.lean ====
section
/-! SUPPORT. For each update of the state, one lemma per field: what the field holds afterwards. All are true by rfl. -/

namespace Sys2Proof.Machine

variable (s : State)

/-! ### enter -/

@[simp] theorem enter_cfg (d : DispState) : (enter d s).cfg = s.cfg := rfl
@[simp] theorem enter_tbl (d : DispState) : (enter d s).tbl = s.tbl := rfl
@[simp] theorem enter_disp (d : DispState) : (enter d s).disp = d := rfl
@[simp] theorem enter_req (d : DispState) : (enter d s).req = s.req := rfl
@[simp] theorem enter_rsp (d : DispState) : (enter d s).rsp = s.rsp := rfl
@[simp] theorem enter_mux (d : DispState) : (enter d s).mux = s.mux := rfl
@[simp] theorem enter_pending (d : DispState) : (enter d s).pending = s.pending := rfl
@[simp] theorem enter_env (d : DispState) : (enter d s).env = s.env := rfl
@[simp] theorem enter_now (d : DispState) : (enter d s).now = s.now := rfl
@[simp] theorem enter_trace (d : DispState) : (enter d s).trace = s.trace := rfl

/-! ### respond -/

@[simp] theorem respond_cfg (pdu : List Byte) : (respond pdu s).cfg = s.cfg := rfl
@[simp] theorem respond_tbl (pdu : List Byte) : (respond pdu s).tbl = s.tbl := rfl
@[simp] theorem respond_disp (pdu : List Byte) : (respond pdu s).disp = .respond := rfl
@[simp] theorem respond_req (pdu : List Byte) : (respond pdu s).req = s.req := rfl
@[simp] theorem respond_rsp (pdu : List Byte) : (respond pdu s).rsp = pdu := rfl
@[simp] theorem respond_mux (pdu : List Byte) : (respond pdu s).mux = s.mux := rfl
@[simp] theorem respond_pending (pdu : List Byte) : (respond pdu s).pending = s.pending := rfl
@[simp] theorem respond_env (pdu : List Byte) : (respond pdu s).env = s.env := rfl
@[simp] theorem respond_now (pdu : List Byte) : (respond pdu s).now = s.now := rfl
@[simp] theorem respond_trace (pdu : List Byte) : (respond pdu s).trace = s.trace := rfl

/-! ### takeException -/

@[simp] theorem takeException_cfg (c : ExceptionCode) : (takeException c s).cfg = s.cfg := rfl
@[simp] theorem takeException_tbl (c : ExceptionCode) : (takeException c s).tbl = s.tbl := rfl
@[simp] theorem takeException_disp (c : ExceptionCode) : (takeException c s).disp = .respond := rfl
@[simp] theorem takeException_req (c : ExceptionCode) : (takeException c s).req = s.req := rfl
@[simp] theorem takeException_rsp (c : ExceptionCode) : (takeException c s).rsp = exceptionPdu s.req.fc c := rfl
@[simp] theorem takeException_mux (c : ExceptionCode) : (takeException c s).mux = s.mux := rfl
@[simp] theorem takeException_pending (c : ExceptionCode) : (takeException c s).pending = s.pending := rfl
@[simp] theorem takeException_env (c : ExceptionCode) : (takeException c s).env = s.env := rfl
@[simp] theorem takeException_now (c : ExceptionCode) : (takeException c s).now = s.now := rfl
@[simp] theorem takeException_trace (c : ExceptionCode) : (takeException c s).trace = s.trace := rfl

/-! ### returnToIdle -/

@[simp] theorem returnToIdle_cfg : (returnToIdle s).cfg = s.cfg := rfl
@[simp] theorem returnToIdle_tbl : (returnToIdle s).tbl = s.tbl := rfl
@[simp] theorem returnToIdle_disp : (returnToIdle s).disp = .idle := rfl
@[simp] theorem returnToIdle_req : (returnToIdle s).req = { s.req with valid := false } := rfl
@[simp] theorem returnToIdle_rsp : (returnToIdle s).rsp = [] := rfl
@[simp] theorem returnToIdle_mux : (returnToIdle s).mux = { s.mux with inflight := none } := rfl
@[simp] theorem returnToIdle_pending : (returnToIdle s).pending = s.pending := rfl
@[simp] theorem returnToIdle_env : (returnToIdle s).env = s.env := rfl
@[simp] theorem returnToIdle_now : (returnToIdle s).now = s.now := rfl
@[simp] theorem returnToIdle_trace : (returnToIdle s).trace = s.trace := rfl

/-! ### emit -/

@[simp] theorem emit_cfg (a : Action) : (emit a s).cfg = s.cfg := rfl
@[simp] theorem emit_tbl (a : Action) : (emit a s).tbl = s.tbl := rfl
@[simp] theorem emit_disp (a : Action) : (emit a s).disp = s.disp := rfl
@[simp] theorem emit_req (a : Action) : (emit a s).req = s.req := rfl
@[simp] theorem emit_rsp (a : Action) : (emit a s).rsp = s.rsp := rfl
@[simp] theorem emit_mux (a : Action) : (emit a s).mux = s.mux := rfl
@[simp] theorem emit_pending (a : Action) : (emit a s).pending = s.pending := rfl
@[simp] theorem emit_env (a : Action) : (emit a s).env = s.env := rfl
@[simp] theorem emit_now (a : Action) : (emit a s).now = s.now := rfl
@[simp] theorem emit_trace (a : Action) : (emit a s).trace = s.trace ++ [a] := rfl

/-! ### storeUnits -/

@[simp] theorem storeUnits_cfg (e : Nat) (us : List Word) : (storeUnits e us s).cfg = s.cfg := rfl
@[simp] theorem storeUnits_tbl (e : Nat) (us : List Word) : (storeUnits e us s).tbl = s.tbl.set e us := rfl
@[simp] theorem storeUnits_disp (e : Nat) (us : List Word) : (storeUnits e us s).disp = s.disp := rfl
@[simp] theorem storeUnits_req (e : Nat) (us : List Word) : (storeUnits e us s).req = s.req := rfl
@[simp] theorem storeUnits_rsp (e : Nat) (us : List Word) : (storeUnits e us s).rsp = s.rsp := rfl
@[simp] theorem storeUnits_mux (e : Nat) (us : List Word) : (storeUnits e us s).mux = s.mux := rfl
@[simp] theorem storeUnits_pending (e : Nat) (us : List Word) : (storeUnits e us s).pending = s.pending := rfl
@[simp] theorem storeUnits_env (e : Nat) (us : List Word) : (storeUnits e us s).env = s.env := rfl
@[simp] theorem storeUnits_now (e : Nat) (us : List Word) : (storeUnits e us s).now = s.now := rfl
@[simp] theorem storeUnits_trace (e : Nat) (us : List Word) : (storeUnits e us s).trace = s.trace := rfl

/-! ### latchRange -/

@[simp] theorem latchRange_cfg (a q : Word) : (latchRange a q s).cfg = s.cfg := rfl
@[simp] theorem latchRange_tbl (a q : Word) : (latchRange a q s).tbl = s.tbl := rfl
@[simp] theorem latchRange_disp (a q : Word) : (latchRange a q s).disp = s.disp := rfl
@[simp] theorem latchRange_req (a q : Word) : (latchRange a q s).req = { s.req with addr := a, qty := q } := rfl
@[simp] theorem latchRange_rsp (a q : Word) : (latchRange a q s).rsp = s.rsp := rfl
@[simp] theorem latchRange_mux (a q : Word) : (latchRange a q s).mux = s.mux := rfl
@[simp] theorem latchRange_pending (a q : Word) : (latchRange a q s).pending = s.pending := rfl
@[simp] theorem latchRange_env (a q : Word) : (latchRange a q s).env = s.env := rfl
@[simp] theorem latchRange_now (a q : Word) : (latchRange a q s).now = s.now := rfl
@[simp] theorem latchRange_trace (a q : Word) : (latchRange a q s).trace = s.trace := rfl

/-! ### latchSingle -/

@[simp] theorem latchSingle_cfg (a v : Word) : (latchSingle a v s).cfg = s.cfg := rfl
@[simp] theorem latchSingle_tbl (a v : Word) : (latchSingle a v s).tbl = s.tbl := rfl
@[simp] theorem latchSingle_disp (a v : Word) : (latchSingle a v s).disp = s.disp := rfl
@[simp] theorem latchSingle_req (a v : Word) : (latchSingle a v s).req = { s.req with addr := a, qty := 1, rawVal := v } := rfl
@[simp] theorem latchSingle_rsp (a v : Word) : (latchSingle a v s).rsp = s.rsp := rfl
@[simp] theorem latchSingle_mux (a v : Word) : (latchSingle a v s).mux = s.mux := rfl
@[simp] theorem latchSingle_pending (a v : Word) : (latchSingle a v s).pending = s.pending := rfl
@[simp] theorem latchSingle_env (a v : Word) : (latchSingle a v s).env = s.env := rfl
@[simp] theorem latchSingle_now (a v : Word) : (latchSingle a v s).now = s.now := rfl
@[simp] theorem latchSingle_trace (a v : Word) : (latchSingle a v s).trace = s.trace := rfl

/-! ### latchVals -/

@[simp] theorem latchVals_cfg (vs : List Nat) : (latchVals vs s).cfg = s.cfg := rfl
@[simp] theorem latchVals_tbl (vs : List Nat) : (latchVals vs s).tbl = s.tbl := rfl
@[simp] theorem latchVals_disp (vs : List Nat) : (latchVals vs s).disp = s.disp := rfl
@[simp] theorem latchVals_req (vs : List Nat) : (latchVals vs s).req = { s.req with vals := vs } := rfl
@[simp] theorem latchVals_rsp (vs : List Nat) : (latchVals vs s).rsp = s.rsp := rfl
@[simp] theorem latchVals_mux (vs : List Nat) : (latchVals vs s).mux = s.mux := rfl
@[simp] theorem latchVals_pending (vs : List Nat) : (latchVals vs s).pending = s.pending := rfl
@[simp] theorem latchVals_env (vs : List Nat) : (latchVals vs s).env = s.env := rfl
@[simp] theorem latchVals_now (vs : List Nat) : (latchVals vs s).now = s.now := rfl
@[simp] theorem latchVals_trace (vs : List Nat) : (latchVals vs s).trace = s.trace := rfl

/-! ### modifySlot -/

@[simp] theorem modifySlot_cfg (i : Nat) (f : Slot → Slot) : (modifySlot i f s).cfg = s.cfg := rfl
@[simp] theorem modifySlot_tbl (i : Nat) (f : Slot → Slot) : (modifySlot i f s).tbl = s.tbl := rfl
@[simp] theorem modifySlot_disp (i : Nat) (f : Slot → Slot) : (modifySlot i f s).disp = s.disp := rfl
@[simp] theorem modifySlot_req (i : Nat) (f : Slot → Slot) : (modifySlot i f s).req = s.req := rfl
@[simp] theorem modifySlot_rsp (i : Nat) (f : Slot → Slot) : (modifySlot i f s).rsp = s.rsp := rfl
@[simp] theorem modifySlot_mux (i : Nat) (f : Slot → Slot) : (modifySlot i f s).mux = { s.mux with slots := s.mux.slots.modify i f } := rfl
@[simp] theorem modifySlot_pending (i : Nat) (f : Slot → Slot) : (modifySlot i f s).pending = s.pending := rfl
@[simp] theorem modifySlot_env (i : Nat) (f : Slot → Slot) : (modifySlot i f s).env = s.env := rfl
@[simp] theorem modifySlot_now (i : Nat) (f : Slot → Slot) : (modifySlot i f s).now = s.now := rfl
@[simp] theorem modifySlot_trace (i : Nat) (f : Slot → Slot) : (modifySlot i f s).trace = s.trace := rfl

/-! ### touchSlot -/

@[simp] theorem touchSlot_cfg (i : Nat) : (touchSlot i s).cfg = s.cfg := rfl
@[simp] theorem touchSlot_tbl (i : Nat) : (touchSlot i s).tbl = s.tbl := rfl
@[simp] theorem touchSlot_disp (i : Nat) : (touchSlot i s).disp = s.disp := rfl
@[simp] theorem touchSlot_req (i : Nat) : (touchSlot i s).req = s.req := rfl
@[simp] theorem touchSlot_rsp (i : Nat) : (touchSlot i s).rsp = s.rsp := rfl
@[simp] theorem touchSlot_mux (i : Nat) : (touchSlot i s).mux = { s.mux with slots := s.mux.slots.modify i (fun c => { c with lastActivity := s.now }) } := rfl
@[simp] theorem touchSlot_pending (i : Nat) : (touchSlot i s).pending = s.pending := rfl
@[simp] theorem touchSlot_env (i : Nat) : (touchSlot i s).env = s.env := rfl
@[simp] theorem touchSlot_now (i : Nat) : (touchSlot i s).now = s.now := rfl
@[simp] theorem touchSlot_trace (i : Nat) : (touchSlot i s).trace = s.trace := rfl

/-! ### markConnected -/

@[simp] theorem markConnected_cfg (i : Nat) : (markConnected i s).cfg = s.cfg := rfl
@[simp] theorem markConnected_tbl (i : Nat) : (markConnected i s).tbl = s.tbl := rfl
@[simp] theorem markConnected_disp (i : Nat) : (markConnected i s).disp = s.disp := rfl
@[simp] theorem markConnected_req (i : Nat) : (markConnected i s).req = s.req := rfl
@[simp] theorem markConnected_rsp (i : Nat) : (markConnected i s).rsp = s.rsp := rfl
@[simp] theorem markConnected_mux (i : Nat) : (markConnected i s).mux = { s.mux with slots := s.mux.slots.modify i (fun c => { c with live := .connected }) } := rfl
@[simp] theorem markConnected_pending (i : Nat) : (markConnected i s).pending = s.pending := rfl
@[simp] theorem markConnected_env (i : Nat) : (markConnected i s).env = s.env := rfl
@[simp] theorem markConnected_now (i : Nat) : (markConnected i s).now = s.now := rfl
@[simp] theorem markConnected_trace (i : Nat) : (markConnected i s).trace = s.trace := rfl

/-! ### markClosing -/

@[simp] theorem markClosing_cfg (i : Nat) : (markClosing i s).cfg = s.cfg := rfl
@[simp] theorem markClosing_tbl (i : Nat) : (markClosing i s).tbl = s.tbl := rfl
@[simp] theorem markClosing_disp (i : Nat) : (markClosing i s).disp = s.disp := rfl
@[simp] theorem markClosing_req (i : Nat) : (markClosing i s).req = s.req := rfl
@[simp] theorem markClosing_rsp (i : Nat) : (markClosing i s).rsp = s.rsp := rfl
@[simp] theorem markClosing_mux (i : Nat) : (markClosing i s).mux = { s.mux with slots := s.mux.slots.modify i (fun c => if c.live = .connected then { c with live := .closing } else c) } := rfl
@[simp] theorem markClosing_pending (i : Nat) : (markClosing i s).pending = s.pending := rfl
@[simp] theorem markClosing_env (i : Nat) : (markClosing i s).env = s.env := rfl
@[simp] theorem markClosing_now (i : Nat) : (markClosing i s).now = s.now := rfl
@[simp] theorem markClosing_trace (i : Nat) : (markClosing i s).trace = s.trace := rfl

/-! ### noteLink -/

@[simp] theorem noteLink_cfg : (noteLink s).cfg = s.cfg := rfl
@[simp] theorem noteLink_tbl : (noteLink s).tbl = s.tbl := rfl
@[simp] theorem noteLink_disp : (noteLink s).disp = s.disp := rfl
@[simp] theorem noteLink_req : (noteLink s).req = s.req := rfl
@[simp] theorem noteLink_rsp : (noteLink s).rsp = s.rsp := rfl
@[simp] theorem noteLink_mux : (noteLink s).mux = { s.mux with linkDownSince := linkDownAfter s.env.linkUp s.now s.mux.linkDownSince } := rfl
@[simp] theorem noteLink_pending : (noteLink s).pending = s.pending := rfl
@[simp] theorem noteLink_env : (noteLink s).env = s.env := rfl
@[simp] theorem noteLink_now : (noteLink s).now = s.now := rfl
@[simp] theorem noteLink_trace : (noteLink s).trace = s.trace := rfl

/-! ### advanceCursor -/

@[simp] theorem advanceCursor_cfg : (advanceCursor s).cfg = s.cfg := rfl
@[simp] theorem advanceCursor_tbl : (advanceCursor s).tbl = s.tbl := rfl
@[simp] theorem advanceCursor_disp : (advanceCursor s).disp = s.disp := rfl
@[simp] theorem advanceCursor_req : (advanceCursor s).req = s.req := rfl
@[simp] theorem advanceCursor_rsp : (advanceCursor s).rsp = s.rsp := rfl
@[simp] theorem advanceCursor_mux : (advanceCursor s).mux = { s.mux with cursor := (s.mux.cursor + 1) % s.cfg.maxConn } := rfl
@[simp] theorem advanceCursor_pending : (advanceCursor s).pending = s.pending := rfl
@[simp] theorem advanceCursor_env : (advanceCursor s).env = s.env := rfl
@[simp] theorem advanceCursor_now : (advanceCursor s).now = s.now := rfl
@[simp] theorem advanceCursor_trace : (advanceCursor s).trace = s.trace := rfl

/-! ### forceCloseSlot -/

@[simp] theorem forceCloseSlot_cfg (i : Nat) : (forceCloseSlot i s).cfg = s.cfg := rfl
@[simp] theorem forceCloseSlot_tbl (i : Nat) : (forceCloseSlot i s).tbl = s.tbl := rfl
@[simp] theorem forceCloseSlot_disp (i : Nat) : (forceCloseSlot i s).disp = s.disp := rfl
@[simp] theorem forceCloseSlot_req (i : Nat) : (forceCloseSlot i s).req = s.req := rfl
@[simp] theorem forceCloseSlot_rsp (i : Nat) : (forceCloseSlot i s).rsp = s.rsp := rfl
@[simp] theorem forceCloseSlot_mux (i : Nat) : (forceCloseSlot i s).mux = { s.mux with slots := s.mux.slots.modify i (fun c => { c with live := .closed }) } := rfl
@[simp] theorem forceCloseSlot_pending (i : Nat) : (forceCloseSlot i s).pending = s.pending := rfl
@[simp] theorem forceCloseSlot_env (i : Nat) : (forceCloseSlot i s).env = s.env := rfl
@[simp] theorem forceCloseSlot_now (i : Nat) : (forceCloseSlot i s).now = s.now := rfl
@[simp] theorem forceCloseSlot_trace (i : Nat) : (forceCloseSlot i s).trace = s.trace ++ [.forceClose i] := rfl

/-! ### replaceSlot -/

@[simp] theorem replaceSlot_cfg (i : Nat) : (replaceSlot i s).cfg = s.cfg := rfl
@[simp] theorem replaceSlot_tbl (i : Nat) : (replaceSlot i s).tbl = s.tbl := rfl
@[simp] theorem replaceSlot_disp (i : Nat) : (replaceSlot i s).disp = s.disp := rfl
@[simp] theorem replaceSlot_req (i : Nat) : (replaceSlot i s).req = s.req := rfl
@[simp] theorem replaceSlot_rsp (i : Nat) : (replaceSlot i s).rsp = s.rsp := rfl
@[simp] theorem replaceSlot_mux (i : Nat) : (replaceSlot i s).mux = { s.mux with slots := s.mux.slots.modify i (fun c => { live := .listening, gen := c.gen + 1, lastActivity := s.now }) } := rfl
@[simp] theorem replaceSlot_pending (i : Nat) : (replaceSlot i s).pending = s.pending := rfl
@[simp] theorem replaceSlot_env (i : Nat) : (replaceSlot i s).env = s.env := rfl
@[simp] theorem replaceSlot_now (i : Nat) : (replaceSlot i s).now = s.now := rfl
@[simp] theorem replaceSlot_trace (i : Nat) : (replaceSlot i s).trace = s.trace ++ [.replaceSocket i] := rfl

/-! ### latchRTU -/

@[simp] theorem latchRTU_cfg (f : List Byte) : (latchRTU f s).cfg = s.cfg := rfl
@[simp] theorem latchRTU_tbl (f : List Byte) : (latchRTU f s).tbl = s.tbl := rfl
@[simp] theorem latchRTU_disp (f : List Byte) : (latchRTU f s).disp = s.disp := rfl
@[simp] theorem latchRTU_req (f : List Byte) : (latchRTU f s).req = { s.req with valid := true, peer := .bus, unit := f.getD 0 0, pdu := rtuPdu f, fc := f.getD 1 0 } := rfl
@[simp] theorem latchRTU_rsp (f : List Byte) : (latchRTU f s).rsp = s.rsp := rfl
@[simp] theorem latchRTU_mux (f : List Byte) : (latchRTU f s).mux = s.mux := rfl
@[simp] theorem latchRTU_pending (f : List Byte) : (latchRTU f s).pending = s.pending := rfl
@[simp] theorem latchRTU_env (f : List Byte) : (latchRTU f s).env = s.env := rfl
@[simp] theorem latchRTU_now (f : List Byte) : (latchRTU f s).now = s.now := rfl
@[simp] theorem latchRTU_trace (f : List Byte) : (latchRTU f s).trace = s.trace := rfl

/-! ### latchMBAP -/

@[simp] theorem latchMBAP_cfg (f : List Byte) (i : Nat) : (latchMBAP f i s).cfg = s.cfg := rfl
@[simp] theorem latchMBAP_tbl (f : List Byte) (i : Nat) : (latchMBAP f i s).tbl = s.tbl := rfl
@[simp] theorem latchMBAP_disp (f : List Byte) (i : Nat) : (latchMBAP f i s).disp = s.disp := rfl
@[simp] theorem latchMBAP_req (f : List Byte) (i : Nat) : (latchMBAP f i s).req = { s.req with valid := true, peer := .slot i, unit := f.getD 6 0, tid := be16 f 0, pdu := mbapPdu f, fc := f.getD 7 0 } := rfl
@[simp] theorem latchMBAP_rsp (f : List Byte) (i : Nat) : (latchMBAP f i s).rsp = s.rsp := rfl
@[simp] theorem latchMBAP_mux (f : List Byte) (i : Nat) : (latchMBAP f i s).mux = { s.mux with inflight := some i, slots := s.mux.slots.modify i (fun c => { c with lastActivity := s.now }) } := rfl
@[simp] theorem latchMBAP_pending (f : List Byte) (i : Nat) : (latchMBAP f i s).pending = s.pending := rfl
@[simp] theorem latchMBAP_env (f : List Byte) (i : Nat) : (latchMBAP f i s).env = s.env := rfl
@[simp] theorem latchMBAP_now (f : List Byte) (i : Nat) : (latchMBAP f i s).now = s.now := rfl
@[simp] theorem latchMBAP_trace (f : List Byte) (i : Nat) : (latchMBAP f i s).trace = s.trace := rfl

/-! ### takeInputs -/

@[simp] theorem takeInputs_cfg (p : PollInput) : (takeInputs p s).cfg = s.cfg := rfl
@[simp] theorem takeInputs_tbl (p : PollInput) : (takeInputs p s).tbl = s.tbl := rfl
@[simp] theorem takeInputs_disp (p : PollInput) : (takeInputs p s).disp = s.disp := rfl
@[simp] theorem takeInputs_req (p : PollInput) : (takeInputs p s).req = s.req := rfl
@[simp] theorem takeInputs_rsp (p : PollInput) : (takeInputs p s).rsp = s.rsp := rfl
@[simp] theorem takeInputs_mux (p : PollInput) : (takeInputs p s).mux = s.mux := rfl
@[simp] theorem takeInputs_pending (p : PollInput) : (takeInputs p s).pending = s.pending := rfl
@[simp] theorem takeInputs_env (p : PollInput) : (takeInputs p s).env = p := rfl
@[simp] theorem takeInputs_now (p : PollInput) : (takeInputs p s).now = s.now + p.elapsed := rfl
@[simp] theorem takeInputs_trace (p : PollInput) : (takeInputs p s).trace = s.trace := rfl

/-! ### sendRTU -/

@[simp] theorem sendRTU_cfg : (sendRTU s).cfg = s.cfg := rfl
@[simp] theorem sendRTU_tbl : (sendRTU s).tbl = s.tbl := rfl
@[simp] theorem sendRTU_disp : (sendRTU s).disp = s.disp := rfl
@[simp] theorem sendRTU_req : (sendRTU s).req = s.req := rfl
@[simp] theorem sendRTU_rsp : (sendRTU s).rsp = s.rsp := rfl
@[simp] theorem sendRTU_mux : (sendRTU s).mux = s.mux := rfl
@[simp] theorem sendRTU_pending : (sendRTU s).pending = s.pending := rfl
@[simp] theorem sendRTU_env : (sendRTU s).env = s.env := rfl
@[simp] theorem sendRTU_now : (sendRTU s).now = s.now := rfl
@[simp] theorem sendRTU_trace : (sendRTU s).trace = s.trace ++ [.send .bus (rtuFrame s.req.unit s.rsp) s.env.sendOk] := rfl

end Sys2Proof.Machine
end

