-- ==== Sys2Proof/Laws/Ops.lean ====
section
/-! SUPPORT. For each shared operation, one lemma that says everything it can do: address resolution, the hooks, the read and write primitives, the two shapes of a function. -/

namespace Sys2Proof.Machine

/-! ### Address resolution -/

theorem covers_iff {D : Entry} {sp : Space} {addr n : Nat} :
    covers D sp addr n = true ↔ D.space = sp ∧ D.base.toNat ≤ addr ∧ addr + n ≤ D.base.toNat + D.count := by
  simp [covers, and_assoc]

theorem findEntry_some {sp : Space} {addr n : Nat} {ds : List Entry} {e k : Nat} {D : Entry}
    (h : findEntry sp addr n e ds = some (k, D)) :
    e ≤ k ∧ ds[k - e]? = some D ∧ covers D sp addr n = true := by
  induction ds generalizing e with
  | nil => simp [findEntry] at h
  | cons E ds ih =>
    rw [findEntry] at h
    split at h
    · obtain ⟨rfl, rfl⟩ : e = k ∧ E = D := by simpa using h
      simpa
    · obtain ⟨hle, hget, hc⟩ := ih h
      refine ⟨by omega, ?_, hc⟩
      rw [show k - e = (k - (e + 1)) + 1 by omega]
      simpa using hget

theorem findEntry_none {sp : Space} {addr n : Nat} {ds : List Entry} {e : Nat} :
    findEntry sp addr n e ds = none ↔ ∀ D ∈ ds, covers D sp addr n = false := by
  induction ds generalizing e with
  | nil => simp [findEntry]
  | cons E ds ih =>
    rw [findEntry]
    split <;> simp_all

/-- What a resolved request knows of its entry (20_memory.md R53). -/
theorem resolve_some {rm : List Entry} {sp : Space} {addr n e : Nat} {D : Entry}
    (h : resolve rm sp addr n = some (e, D)) :
    rm[e]? = some D ∧ D.space = sp ∧ D.base.toNat ≤ addr ∧ addr + n ≤ D.base.toNat + D.count := by
  obtain ⟨-, hget, hc⟩ := findEntry_some h
  exact ⟨by simpa using hget, covers_iff.mp hc⟩

theorem resolve_none {rm : List Entry} {sp : Space} {addr n : Nat} :
    resolve rm sp addr n = none ↔ ∀ D ∈ rm, covers D sp addr n = false :=
  findEntry_none

theorem resolve_mem {rm : List Entry} {sp : Space} {addr n e : Nat} {D : Entry}
    (h : resolve rm sp addr n = some (e, D)) : D ∈ rm :=
  List.mem_of_getElem? (resolve_some h).1

theorem resolve_index_lt {rm : List Entry} {sp : Space} {addr n e : Nat} {D : Entry}
    (h : resolve rm sp addr n = some (e, D)) : e < rm.length :=
  (List.getElem?_eq_some_iff.mp (resolve_some h).1).1

theorem spaceDefined_of_resolve {rm : List Entry} {sp : Space} {addr n e : Nat} {D : Entry}
    (h : resolve rm sp addr n = some (e, D)) : spaceDefined rm sp = true := by
  simp only [spaceDefined, List.any_eq_true, beq_iff_eq]
  exact ⟨D, resolve_mem h, (resolve_some h).2.1⟩

/-! ### The validator -/

/-- Every outcome of `Validate` (41_dispatch.md R133). -/
theorem validate_cases (sp : Space) (addr : Word) (n : Nat) (s : State) :
    (spaceDefined s.cfg.regmap sp = false ∧ validate sp addr n s = some .illegalFunction) ∨
    (spaceDefined s.cfg.regmap sp = true ∧ resolve s.cfg.regmap sp addr.toNat n = none ∧
      validate sp addr n s = some .illegalDataAddress) ∨
    (∃ e D, resolve s.cfg.regmap sp addr.toNat n = some (e, D) ∧ validate sp addr n s = none) := by
  unfold validate
  cases hd : spaceDefined s.cfg.regmap sp with
  | false => simp
  | true =>
    cases hr : resolve s.cfg.regmap sp addr.toNat n with
    | none => simp
    | some x => exact .inr (.inr ⟨x.1, x.2, by simp⟩)

theorem validate_none {sp : Space} {addr : Word} {n e : Nat} {D : Entry} {s : State}
    (h : resolve s.cfg.regmap sp addr.toNat n = some (e, D)) : validate sp addr n s = none := by
  simp [validate, spaceDefined_of_resolve h, h]

/-! ### The hooks -/

/-- The on-read handshake, when the hook answers: its effect on the table and on what the outside has seen (20_memory.md R62). -/
theorem hookRead_eq {sp : Space} {addr : Word} {e : Nat} {D : Entry} {s : State}
    (h : D.hasOnRead = true → s.env.onRead ≠ .blocks) :
    hookRead sp addr e D s = some { s with tbl := tableAfterRead e D s, trace := traceAfterRead sp addr D s } := by
  unfold hookRead tableAfterRead traceAfterRead
  cases hr : D.hasOnRead with
  | false => simp
  | true =>
    cases ha : s.env.onRead with
    | unchanged => simp [emit]
    | refreshed us => simp [emit, storeUnits]
    | blocks => exact absurd ha (h hr)

theorem hookRead_blocks {sp : Space} {addr : Word} {e : Nat} {D : Entry} {s : State}
    (hr : D.hasOnRead = true) (h : s.env.onRead = .blocks) : hookRead sp addr e D s = none := by
  simp [hookRead, hr, h]

/-- The on-write handshake, when the hook completes (20_memory.md R63). -/
theorem hookWrite_eq {sp : Space} {addr : Word} {vals : List Nat} {D : Entry} {s : State}
    (h : D.hasOnWrite = true → s.env.onWrite ≠ .blocks) :
    hookWrite sp addr vals D s = some { s with trace := traceAfterWrite sp addr vals D s } := by
  unfold hookWrite traceAfterWrite
  cases hr : D.hasOnWrite with
  | false => simp
  | true =>
    cases ha : s.env.onWrite with
    | completes => simp [emit]
    | blocks => exact absurd ha (h hr)

theorem hookWrite_blocks {sp : Space} {addr : Word} {vals : List Nat} {D : Entry} {s : State}
    (hr : D.hasOnWrite = true) (h : s.env.onWrite = .blocks) : hookWrite sp addr vals D s = none := by
  simp [hookWrite, hr, h]

/-! ### The primitives -/

/-- A read primitive that resolves and answers (20_memory.md R60). -/
theorem tableRead_done {sp : Space} {addr : Word} {n e : Nat} {D : Entry} {s : State}
    (hres : resolve s.cfg.regmap sp addr.toNat n = some (e, D))
    (hsub : s.cfg.limits.subrangeRead = .slice ∨ (addr = D.base ∧ n = D.count))
    (hhook : D.hasOnRead = true → s.env.onRead ≠ .blocks) :
    tableRead sp addr n s =
      .done (((tableAfterRead e D s).getD e []).drop (addr.toNat - D.base.toNat) |>.take n)
        { s with tbl := tableAfterRead e D s, trace := traceAfterRead sp addr D s } := by
  have hno : ¬ ((addr ≠ D.base ∨ n ≠ D.count) ∧ s.cfg.limits.subrangeRead = .refuse) := by
    rintro ⟨hp, hr⟩
    rcases hsub with h | ⟨h1, h2⟩
    · rw [h] at hr; cases hr
    · rcases hp with h | h
      · exact h h1
      · exact h h2
  simp only [tableRead, hres, if_neg hno, hookRead_eq hhook, readUnits]

/-- Every outcome of the read primitive (20_memory.md R57, R60). -/
theorem tableRead_cases (sp : Space) (addr : Word) (n : Nat) (s : State) :
    (resolve s.cfg.regmap sp addr.toNat n = none ∧ tableRead sp addr n s = .raise .illegalDataAddress) ∨
    (∃ e D, resolve s.cfg.regmap sp addr.toNat n = some (e, D) ∧
      (((addr ≠ D.base ∨ n ≠ D.count) ∧ s.cfg.limits.subrangeRead = .refuse ∧ tableRead sp addr n s = .refuse .subrangeRead) ∨
       (D.hasOnRead = true ∧ s.env.onRead = .blocks ∧ tableRead sp addr n s = .stuck .hookBlocked) ∨
       ((s.cfg.limits.subrangeRead = .slice ∨ (addr = D.base ∧ n = D.count)) ∧ (D.hasOnRead = true → s.env.onRead ≠ .blocks) ∧
        tableRead sp addr n s =
          .done (((tableAfterRead e D s).getD e []).drop (addr.toNat - D.base.toNat) |>.take n)
            { s with tbl := tableAfterRead e D s, trace := traceAfterRead sp addr D s }))) := by
  cases hres : resolve s.cfg.regmap sp addr.toNat n with
  | none => exact .inl ⟨rfl, by simp [tableRead, hres]⟩
  | some x =>
    obtain ⟨e, D⟩ := x
    refine .inr ⟨e, D, rfl, ?_⟩
    by_cases hp : (addr ≠ D.base ∨ n ≠ D.count) ∧ s.cfg.limits.subrangeRead = .refuse
    · exact .inl ⟨hp.1, hp.2, by simp only [tableRead, hres, if_pos hp]⟩
    · have hsub : s.cfg.limits.subrangeRead = .slice ∨ (addr = D.base ∧ n = D.count) := by
        cases hs : s.cfg.limits.subrangeRead with
        | slice => exact .inl rfl
        | refuse =>
          refine .inr ⟨?_, ?_⟩
          · by_contra hne; exact hp ⟨.inl hne, hs⟩
          · by_contra hne; exact hp ⟨.inr hne, hs⟩
      by_cases hb : D.hasOnRead = true ∧ s.env.onRead = .blocks
      · exact .inr (.inl ⟨hb.1, hb.2, by simp only [tableRead, hres, if_neg hp, hookRead_blocks hb.1 hb.2]⟩)
      · have hhook : D.hasOnRead = true → s.env.onRead ≠ .blocks := fun h1 h2 => hb ⟨h1, h2⟩
        exact .inr (.inr ⟨hsub, hhook, tableRead_done hres hsub hhook⟩)

/-- Every value fits its space: the width check of a write passes (20_memory.md R59). -/
abbrev ValsFit (sp : Space) (vals : List Nat) : Prop := ∀ v ∈ vals, sp.unitWf v

/-- The two width checks of the write primitive, as one condition (20_memory.md R59). -/
theorem tableWrite_eq {sp : Space} {addr : Word} {vals : List Nat} {e : Nat} {D : Entry} {s : State}
    (hres : resolve s.cfg.regmap sp addr.toNat vals.length = some (e, D)) :
    tableWrite sp addr vals s =
      if vals.length = D.count ∧ ValsFit sp vals then
        match hookWrite sp addr vals D (storeUnits e (vals.map (BitVec.ofNat 16)) s) with
        | none => .stuck .hookBlocked
        | some s' => .done () s'
      else .raise .illegalDataValue := by
  simp only [tableWrite, hres]
  by_cases hlen : vals.length = D.count
  swap
  · simp [hlen]
  by_cases hfit : ValsFit sp vals
  · have h1 : ¬ (sp.isBit = true ∧ vals.any (fun v => decide (1 < v)) = true) := by
      rintro ⟨hb, hv⟩
      obtain ⟨v, hv, hlt⟩ := List.any_eq_true.mp hv
      have := hfit v hv
      simp [Space.unitWf, hb] at this hlt
      omega
    have h2 : ¬ (¬ sp.isBit = true ∧ vals.any (fun v => decide (0xFFFF < v)) = true) := by
      rintro ⟨hb, hv⟩
      obtain ⟨v, hv, hlt⟩ := List.any_eq_true.mp hv
      have := hfit v hv
      simp [Space.unitWf, hb] at this hlt
      omega
    rw [if_neg (not_not.mpr hlen), if_neg h1, if_neg h2]
    exact (if_pos ⟨hlen, hfit⟩).symm
  · have hbad : ¬ (vals.length = D.count ∧ ValsFit sp vals) := fun h => hfit h.2
    rw [if_neg (not_not.mpr hlen), if_neg hbad]
    obtain ⟨v, hv, hw⟩ : ∃ v ∈ vals, ¬ sp.unitWf v := by simpa [ValsFit] using hfit
    by_cases hb : sp.isBit = true
    · have : vals.any (fun v => decide (1 < v)) = true :=
        List.any_eq_true.mpr ⟨v, hv, by simpa [Space.unitWf, hb] using hw⟩
      rw [if_pos ⟨hb, this⟩]
    · have : vals.any (fun v => decide (0xFFFF < v)) = true :=
        List.any_eq_true.mpr ⟨v, hv, by simpa [Space.unitWf, hb] using hw⟩
      rw [if_neg (fun h => hb h.1), if_pos ⟨hb, this⟩]

/-- A write primitive that resolves a whole entry and completes (20_memory.md R61). -/
theorem tableWrite_done {sp : Space} {addr : Word} {vals : List Nat} {e : Nat} {D : Entry} {s : State}
    (hres : resolve s.cfg.regmap sp addr.toNat vals.length = some (e, D)) (hlen : vals.length = D.count)
    (hfit : ValsFit sp vals) (hhook : D.hasOnWrite = true → s.env.onWrite ≠ .blocks) :
    tableWrite sp addr vals s =
      .done () { s with tbl := s.tbl.set e (vals.map (BitVec.ofNat 16)), trace := traceAfterWrite sp addr vals D s } := by
  rw [tableWrite_eq hres, if_pos ⟨hlen, hfit⟩,
    hookWrite_eq (s := storeUnits e (vals.map (BitVec.ofNat 16)) s) hhook]
  simp [storeUnits, traceAfterWrite]

/-- Every outcome of the write primitive (20_memory.md R58, R59, R61). -/
theorem tableWrite_cases (sp : Space) (addr : Word) (vals : List Nat) (s : State) :
    (resolve s.cfg.regmap sp addr.toNat vals.length = none ∧ tableWrite sp addr vals s = .raise .illegalDataAddress) ∨
    (∃ e D, resolve s.cfg.regmap sp addr.toNat vals.length = some (e, D) ∧
      ((¬ (vals.length = D.count ∧ ValsFit sp vals) ∧ tableWrite sp addr vals s = .raise .illegalDataValue) ∨
       (vals.length = D.count ∧ ValsFit sp vals ∧
        ((D.hasOnWrite = true ∧ s.env.onWrite = .blocks ∧ tableWrite sp addr vals s = .stuck .hookBlocked) ∨
         ((D.hasOnWrite = true → s.env.onWrite ≠ .blocks) ∧
          tableWrite sp addr vals s =
            .done () { s with tbl := s.tbl.set e (vals.map (BitVec.ofNat 16)), trace := traceAfterWrite sp addr vals D s }))))) := by
  cases hres : resolve s.cfg.regmap sp addr.toNat vals.length with
  | none => exact .inl ⟨rfl, by simp [tableWrite, hres]⟩
  | some x =>
    obtain ⟨e, D⟩ := x
    refine .inr ⟨e, D, rfl, ?_⟩
    by_cases hok : vals.length = D.count ∧ ValsFit sp vals
    swap
    · exact .inl ⟨hok, by rw [tableWrite_eq hres, if_neg hok]⟩
    refine .inr ⟨hok.1, hok.2, ?_⟩
    by_cases hb : D.hasOnWrite = true ∧ s.env.onWrite = .blocks
    · refine .inl ⟨hb.1, hb.2, ?_⟩
      rw [tableWrite_eq hres, if_pos hok,
        hookWrite_blocks (s := storeUnits e (vals.map (BitVec.ofNat 16)) s) hb.1 hb.2]
    · have hhook : D.hasOnWrite = true → s.env.onWrite ≠ .blocks := fun h1 h2 => hb ⟨h1, h2⟩
      exact .inr ⟨hhook, tableWrite_done hres hok.1 hok.2 hhook⟩

end Sys2Proof.Machine
end

