-- ==== Sys2Proof/Laws/Exec.lean ====
section
/-! SUPPORT. What an instruction's meaning can do, said once: the form every well-formed read and write takes, and the inversion of `exec`. -/

namespace Sys2Proof.Machine

/-! ### Decoded write data -/

@[simp] theorem unpackBits_length (data : List Byte) (q : Nat) : (unpackBits data q).length = q := by simp [unpackBits]

@[simp] theorem unpackWords_length (data : List Byte) (q : Nat) : (unpackWords data q).length = q := by simp [unpackWords]

theorem unpackBits_le {data : List Byte} {q v : Nat} (h : v ∈ unpackBits data q) : v ≤ 1 := by
  obtain ⟨k, -, rfl⟩ : ∃ k < q, _ = v := by simpa [unpackBits] using h
  omega

theorem unpackWords_le {data : List Byte} {q v : Nat} (h : v ∈ unpackWords data q) : v ≤ 0xFFFF := by
  obtain ⟨k, -, rfl⟩ : ∃ k < q, (be16 data (2 * k)).toNat = v := by simpa [unpackWords] using h
  have := (be16 data (2 * k)).isLt
  omega

/-- A write has exactly as many values as units. -/
theorem writtenVals_length {i : Instr} (h : (fcMap i).2 = .write) : (writtenVals i).length = unitCount i := by
  cases i <;> simp_all [fcMap, writtenVals, unitCount]

/-- The decoders produce only in-width values (20_memory.md R59). -/
theorem writtenVals_fit (i : Instr) : ValsFit (fcMap i).1 (writtenVals i) := by
  intro v hv
  cases i with
  | readCoils _ _ => simp [writtenVals] at hv
  | readDiscreteInputs _ _ => simp [writtenVals] at hv
  | readHoldingRegisters _ _ => simp [writtenVals] at hv
  | readInputRegisters _ _ => simp [writtenVals] at hv
  | writeSingleCoil _ w =>
    obtain rfl : v = if w = 0xFF00 then 1 else 0 := by simpa [writtenVals] using hv
    simp only [Space.unitWf, fcMap, Space.isBit, if_true]
    split <;> omega
  | writeSingleRegister _ w =>
    obtain rfl : v = w.toNat := by simpa [writtenVals] using hv
    have := w.isLt
    simp [Space.unitWf, fcMap, Space.isBit]
    omega
  | writeMultipleCoils _ q _ data => simpa [Space.unitWf, fcMap, Space.isBit] using unpackBits_le hv
  | writeMultipleRegisters _ q _ data => simpa [Space.unitWf, fcMap, Space.isBit] using unpackWords_le hv

/-! ### The request latch during a request -/

/-- `u` is `s` but for the dispatcher's state and the fields of `REQ` that a decoder writes. -/
def Working (s u : State) : Prop :=
  ∃ a q vs r d, u = { s with req := { s.req with addr := a, qty := q, vals := vs, rawVal := r }, disp := d }

theorem Working.refl (s : State) : Working s s := ⟨s.req.addr, s.req.qty, s.req.vals, s.req.rawVal, s.disp, rfl⟩

theorem Working.enter {s u : State} (h : Working s u) (d : DispState) : Working s (enter d u) := by
  obtain ⟨a, q, vs, r, d', rfl⟩ := h
  exact ⟨a, q, vs, r, d, rfl⟩

theorem Working.latchRange {s u : State} (h : Working s u) (a q : Word) : Working s (latchRange a q u) := by
  obtain ⟨_, _, vs, r, d, rfl⟩ := h
  exact ⟨a, q, vs, r, d, rfl⟩

theorem Working.latchSingle {s u : State} (h : Working s u) (a v : Word) : Working s (latchSingle a v u) := by
  obtain ⟨_, _, vs, _, d, rfl⟩ := h
  exact ⟨a, 1, vs, v, d, rfl⟩

theorem Working.latchVals {s u : State} (h : Working s u) (vs : List Nat) : Working s (latchVals vs u) := by
  obtain ⟨a, q, _, r, d, rfl⟩ := h
  exact ⟨a, q, vs, r, d, rfl⟩

/-- A state in which a request is worked on agrees with the one it started from everywhere else. -/
theorem Working.agrees {s u : State} (h : Working s u) :
    u.cfg = s.cfg ∧ u.tbl = s.tbl ∧ u.rsp = s.rsp ∧ u.mux = s.mux ∧ u.pending = s.pending ∧ u.env = s.env ∧
    u.now = s.now ∧ u.trace = s.trace ∧ u.req.fc = s.req.fc ∧ u.req.valid = s.req.valid ∧ u.req.peer = s.req.peer ∧
    u.req.unit = s.req.unit ∧ u.req.tid = s.req.tid ∧ u.req.pdu = s.req.pdu := by
  obtain ⟨a, q, vs, r, d, rfl⟩ := h
  exact ⟨rfl, rfl, rfl, rfl, rfl, rfl, rfl, rfl, rfl, rfl, rfl, rfl, rfl, rfl⟩

/-- The state after a decoder has written its fields of `REQ` (42_read_functions.md, 43_write_functions.md). -/
def latched (i : Instr) (s : State) : State :=
  match i with
  | .readCoils a q => latchRange a q s
  | .readDiscreteInputs a q => latchRange a q s
  | .readHoldingRegisters a q => latchRange a q s
  | .readInputRegisters a q => latchRange a q s
  | .writeSingleCoil a v => latchVals (writtenVals i) (latchSingle a v s)
  | .writeSingleRegister a v => latchVals (writtenVals i) (latchSingle a v s)
  | .writeMultipleCoils a q _ _ => latchVals (writtenVals i) (latchRange a q s)
  | .writeMultipleRegisters a q _ _ => latchVals (writtenVals i) (latchRange a q s)

theorem latched_working (i : Instr) (s : State) : Working s (latched i s) := by
  cases i with
  | readCoils a q => exact (Working.refl s).latchRange a q
  | readDiscreteInputs a q => exact (Working.refl s).latchRange a q
  | readHoldingRegisters a q => exact (Working.refl s).latchRange a q
  | readInputRegisters a q => exact (Working.refl s).latchRange a q
  | writeSingleCoil a v => exact ((Working.refl s).latchSingle a v).latchVals _
  | writeSingleRegister a v => exact ((Working.refl s).latchSingle a v).latchVals _
  | writeMultipleCoils a q bc data => exact ((Working.refl s).latchRange a q).latchVals _
  | writeMultipleRegisters a q bc data => exact ((Working.refl s).latchRange a q).latchVals _

/-- Taking an exception from a state in which the request is worked on (60_exceptions.md R160). -/
theorem raised_takeException {s u : State} {c : ExceptionCode} (hu : Working s u) : Raised s (takeException c u) c := by
  obtain ⟨a, q, vs, r, d, rfl⟩ := hu
  exact ⟨rfl, rfl, rfl⟩

/-- A normal response begins with the function code (30_encoding.md R82). -/
theorem normalPdu_head (i : Instr) (us : List Word) : ∃ r, normalPdu i us = i.fc :: r := by
  cases i <;> exact ⟨_, rfl⟩

/-! ### The forms of `exec` -/

theorem quantityInRange_iff {qty qmax : Word} : quantityInRange qty qmax = true ↔ quantityWf qty qmax := by
  simp [quantityInRange, quantityWf]

theorem byteCountOk_iff {bc : Byte} {n : Nat} {data : List Byte} :
    byteCountOk bc n data = true ↔ bc.toNat = n ∧ data.length = bc.toNat := by
  simp [byteCountOk]

theorem coilValue_eq (v : Word) :
    coilValue v = if v = 0xFF00 ∨ v = 0x0000 then some (if v = 0xFF00 then 1 else 0) else none := by
  unfold coilValue
  by_cases h1 : v = 0xFF00
  · simp [h1]
  · by_cases h2 : v = 0x0000
    · simp [h2]
    · rw [if_neg h1, if_neg h2, if_neg (by rintro (h | h); exacts [h1 h, h2 h])]

/-- A read of a quantity out of range raises before anything else (30_encoding.md R93). -/
theorem readFunction_illFormed {sp : Space} {qmax : Word} {pdu : List Word → List Byte} {a q : Word} {s : State}
    (h : ¬ quantityWf q qmax) :
    readFunction sp qmax pdu a q s = .next (takeException .illegalDataValue (latchRange a q s)) := by
  have : quantityInRange q qmax = false := by
    rw [Bool.eq_false_iff]; exact fun h' => h (quantityInRange_iff.mp h')
  simp [readFunction, this]

theorem readFunction_wf {sp : Space} {qmax : Word} {pdu : List Word → List Byte} {a q : Word} {s : State}
    (h : quantityWf q qmax) :
    readFunction sp qmax pdu a q s =
      validateThen sp a q.toNat (tableRead sp a q.toNat) pdu (latchRange a q s) := by
  have : quantityInRange q qmax = true := quantityInRange_iff.mpr h
  simp [readFunction, this]

/-- An ill-formed request raises `IllegalDataValue` before the space or the address is looked at (41_dispatch.md R135). -/
theorem exec_illFormed {i : Instr} {s : State} (h : ¬ i.wf s.cfg.limits) :
    ∃ u, Working s u ∧ exec i s = .next (takeException .illegalDataValue u) := by
  cases i with
  | readCoils a q => exact ⟨_, (Working.refl s).latchRange a q, readFunction_illFormed h⟩
  | readDiscreteInputs a q => exact ⟨_, (Working.refl s).latchRange a q, readFunction_illFormed h⟩
  | readHoldingRegisters a q => exact ⟨_, (Working.refl s).latchRange a q, readFunction_illFormed h⟩
  | readInputRegisters a q => exact ⟨_, (Working.refl s).latchRange a q, readFunction_illFormed h⟩
  | writeSingleCoil a v =>
    refine ⟨_, (Working.refl s).latchSingle a v, ?_⟩
    simp only [exec, execWriteSingleCoil, coilValue_eq, if_neg h]
  | writeSingleRegister a v => exact absurd trivial h
  | writeMultipleCoils a q bc data =>
    refine ⟨_, (Working.refl s).latchRange a q, ?_⟩
    have : (quantityInRange q s.cfg.limits.qmaxWrBits && byteCountOk bc (ceil8 q.toNat) data) = false := by
      rw [Bool.eq_false_iff]
      intro h'
      rw [Bool.and_eq_true, quantityInRange_iff, byteCountOk_iff] at h'
      exact h h'
    simp [exec, execWriteMultipleCoils, this]
  | writeMultipleRegisters a q bc data =>
    refine ⟨_, (Working.refl s).latchRange a q, ?_⟩
    have : (quantityInRange q s.cfg.limits.qmaxWrRegs && byteCountOk bc (2 * q.toNat) data) = false := by
      rw [Bool.eq_false_iff]
      intro h'
      rw [Bool.and_eq_true, quantityInRange_iff, byteCountOk_iff] at h'
      exact h h'
    simp [exec, execWriteMultipleRegisters, this]

/-- The form every well-formed read takes (42_read_functions.md R140). -/
theorem exec_read {i : Instr} {s : State} (hk : (fcMap i).2 = .read) (h : i.wf s.cfg.limits) :
    exec i s = validateThen (fcMap i).1 (startAddr i) (unitCount i) (tableRead (fcMap i).1 (startAddr i) (unitCount i))
      (normalPdu i) (latched i s) := by
  cases i with
  | readCoils a q => exact readFunction_wf h
  | readDiscreteInputs a q => exact readFunction_wf h
  | readHoldingRegisters a q => exact readFunction_wf h
  | readInputRegisters a q => exact readFunction_wf h
  | writeSingleCoil a v => simp [fcMap] at hk
  | writeSingleRegister a v => simp [fcMap] at hk
  | writeMultipleCoils a q bc data => simp [fcMap] at hk
  | writeMultipleRegisters a q bc data => simp [fcMap] at hk

/-- The form every well-formed write takes (43_write_functions.md R146). -/
theorem exec_write {i : Instr} {s : State} (hk : (fcMap i).2 = .write) (h : i.wf s.cfg.limits) :
    exec i s = validateThen (fcMap i).1 (startAddr i) (writtenVals i).length
      (tableWrite (fcMap i).1 (startAddr i) (writtenVals i)) (fun _ => normalPdu i []) (latched i s) := by
  cases i with
  | readCoils a q => simp [fcMap] at hk
  | readDiscreteInputs a q => simp [fcMap] at hk
  | readHoldingRegisters a q => simp [fcMap] at hk
  | readInputRegisters a q => simp [fcMap] at hk
  | writeSingleCoil a v =>
    simp only [exec, execWriteSingleCoil, coilValue_eq, if_pos h]
    rfl
  | writeSingleRegister a v => rfl
  | writeMultipleCoils a q bc data =>
    have : (quantityInRange q s.cfg.limits.qmaxWrBits && byteCountOk bc (ceil8 q.toNat) data) = true := by
      rw [Bool.and_eq_true, quantityInRange_iff, byteCountOk_iff]
      exact h
    simp only [exec, execWriteMultipleCoils, this]
    rfl
  | writeMultipleRegisters a q bc data =>
    have : (quantityInRange q s.cfg.limits.qmaxWrRegs && byteCountOk bc (2 * q.toNat) data) = true := by
      rw [Bool.and_eq_true, quantityInRange_iff, byteCountOk_iff]
      exact h
    simp only [exec, execWriteMultipleRegisters, this]
    rfl

/-! ### Requests that complete -/

/-- A well-formed read that resolves, whose units the model reads and whose hook answers, completes (42_read_functions.md R140). -/
theorem exec_read_done {i : Instr} {s : State} {e : Nat} {D : Entry} (hk : (fcMap i).2 = .read) (hw : i.wf s.cfg.limits)
    (hres : resolve s.cfg.regmap (fcMap i).1 (startAddr i).toNat (unitCount i) = some (e, D))
    (hsub : s.cfg.limits.subrangeRead = .slice ∨ (startAddr i = D.base ∧ unitCount i = D.count))
    (hhook : D.hasOnRead = true → s.env.onRead ≠ .blocks) :
    exec i s = .next (respond
      (normalPdu i (((tableAfterRead e D s).getD e []).drop ((startAddr i).toNat - D.base.toNat) |>.take (unitCount i)))
      { latched i s with tbl := tableAfterRead e D s, trace := traceAfterRead (fcMap i).1 (startAddr i) D s }) := by
  have hv : Working s (enter .validate (latched i s)) := (latched_working i s).enter _
  obtain ⟨hc, ht, -, -, -, he, -, htr, -⟩ := ((latched_working i s).enter .execute).agrees
  rw [exec_read hk hw]
  unfold validateThen
  rw [validate_none (by rw [hv.agrees.1]; exact hres)]
  simp only
  rw [tableRead_done (e := e) (D := D) (by rw [hc]; exact hres) (by rw [hc]; exact hsub) (by rw [he]; exact hhook)]
  have htab : tableAfterRead e D (enter .execute (latched i s)) = tableAfterRead e D s := by
    simp only [tableAfterRead, he, ht]
  have htrace : traceAfterRead (fcMap i).1 (startAddr i) D (enter .execute (latched i s)) =
      traceAfterRead (fcMap i).1 (startAddr i) D s := by
    simp only [traceAfterRead, htr]
  simp only [conclude, respond, htab, htrace]
  rfl

/-- A well-formed write of a whole entry whose hook completes, completes (43_write_functions.md R146). -/
theorem exec_write_done {i : Instr} {s : State} {e : Nat} {D : Entry} (hk : (fcMap i).2 = .write) (hw : i.wf s.cfg.limits)
    (hres : resolve s.cfg.regmap (fcMap i).1 (startAddr i).toNat (unitCount i) = some (e, D)) (hlen : unitCount i = D.count)
    (hhook : D.hasOnWrite = true → s.env.onWrite ≠ .blocks) :
    exec i s = .next (respond (normalPdu i [])
      { latched i s with
        tbl := s.tbl.set e ((writtenVals i).map (BitVec.ofNat 16))
        trace := traceAfterWrite (fcMap i).1 (startAddr i) (writtenVals i) D s }) := by
  have hv : Working s (enter .validate (latched i s)) := (latched_working i s).enter _
  obtain ⟨hc, ht, -, -, -, he, -, htr, -⟩ := ((latched_working i s).enter .execute).agrees
  rw [exec_write hk hw]
  unfold validateThen
  rw [← writtenVals_length hk] at hres hlen
  rw [validate_none (by rw [hv.agrees.1]; exact hres)]
  simp only
  rw [tableWrite_done (e := e) (D := D) (by rw [hc]; exact hres) hlen (writtenVals_fit i) (by rw [he]; exact hhook)]
  have htrace : traceAfterWrite (fcMap i).1 (startAddr i) (writtenVals i) D (enter .execute (latched i s)) =
      traceAfterWrite (fcMap i).1 (startAddr i) (writtenVals i) D s := by
    simp only [traceAfterWrite, htr]
  simp only [conclude, respond, ht, htrace]
  rfl

/-! ### The inversion of `exec` -/

/-- The end of a request: an exception, a normal read, a normal write, a refused sub-range read or a hook that never answers. -/
inductive Ending (i : Instr) (s : State) : Result → Prop where
  | raised (c : ExceptionCode) (u : State) (hu : Working s u) : Ending i s (.next (takeException c u))
  | read (e : Nat) (D : Entry) (u : State) (hu : Working s u) (hk : (fcMap i).2 = .read) (hw : i.wf s.cfg.limits)
      (hres : resolve s.cfg.regmap (fcMap i).1 (startAddr i).toNat (unitCount i) = some (e, D))
      (hhook : D.hasOnRead = true → s.env.onRead ≠ .blocks) :
      Ending i s (.next (respond
        (normalPdu i (((tableAfterRead e D s).getD e []).drop ((startAddr i).toNat - D.base.toNat) |>.take (unitCount i)))
        { u with tbl := tableAfterRead e D s, trace := traceAfterRead (fcMap i).1 (startAddr i) D s }))
  | write (e : Nat) (D : Entry) (u : State) (hu : Working s u) (hk : (fcMap i).2 = .write) (hw : i.wf s.cfg.limits)
      (hres : resolve s.cfg.regmap (fcMap i).1 (startAddr i).toNat (unitCount i) = some (e, D))
      (hlen : (writtenVals i).length = D.count) (hhook : D.hasOnWrite = true → s.env.onWrite ≠ .blocks) :
      Ending i s (.next (respond (normalPdu i [])
        { u with tbl := s.tbl.set e ((writtenVals i).map (BitVec.ofNat 16)),
                 trace := traceAfterWrite (fcMap i).1 (startAddr i) (writtenVals i) D s }))
  | refused (hk : (fcMap i).2 = .read) (hm : s.cfg.limits.subrangeRead = .refuse) : Ending i s (.refused .subrangeRead)
  | blocked (h : ((fcMap i).2 = .read ∧ s.env.onRead = .blocks) ∨ ((fcMap i).2 = .write ∧ s.env.onWrite = .blocks)) :
      Ending i s (.fault .hookBlocked)

/-- Every request ends in one of these ways. -/
theorem exec_ending (i : Instr) (s : State) : Ending i s (exec i s) := by
  by_cases hw : i.wf s.cfg.limits
  swap
  · obtain ⟨u, hu, he⟩ := exec_illFormed hw
    rw [he]; exact .raised _ u hu
  have hv : Working s (enter .validate (latched i s)) := (latched_working i s).enter _
  have hx : Working s (enter .execute (latched i s)) := (latched_working i s).enter _
  obtain ⟨hcv, -⟩ := hv.agrees
  obtain ⟨hc, ht, -, -, -, he, -, htr, -⟩ := hx.agrees
  have htab : ∀ e D, tableAfterRead e D (enter .execute (latched i s)) = tableAfterRead e D s := by
    intro e D; simp only [tableAfterRead, he, ht]
  have htrr : ∀ sp a D, traceAfterRead sp a D (enter .execute (latched i s)) = traceAfterRead sp a D s := by
    intro sp a D; simp only [traceAfterRead, htr]
  have htrw : ∀ sp a vs D, traceAfterWrite sp a vs D (enter .execute (latched i s)) = traceAfterWrite sp a vs D s := by
    intro sp a vs D; simp only [traceAfterWrite, htr]
  cases hk : (fcMap i).2 with
  | read =>
    rw [exec_read hk hw]
    unfold validateThen
    rcases validate_cases (fcMap i).1 (startAddr i) (unitCount i) (enter .validate (latched i s)) with
      ⟨-, h⟩ | ⟨-, -, h⟩ | ⟨e, D, hres, h⟩
    · rw [h]; exact .raised _ _ hv
    · rw [h]; exact .raised _ _ hv
    · rw [h]
      rw [hcv] at hres
      rcases tableRead_cases (fcMap i).1 (startAddr i) (unitCount i) (enter .execute (latched i s)) with
        ⟨-, h⟩ | ⟨e', D', hres', h⟩
      · simp only [conclude, h]; exact .raised _ _ hx
      · rw [hc, hres] at hres'
        obtain ⟨rfl, rfl⟩ : e = e' ∧ D = D' := by simpa using hres'
        rcases h with ⟨-, hm, h⟩ | ⟨-, hb, h⟩ | ⟨-, hh, h⟩
        · simp only [conclude, h]; exact .refused hk (by rw [← hc]; exact hm)
        · simp only [conclude, h]; exact .blocked (.inl ⟨hk, by rw [← he]; exact hb⟩)
        · rw [htab, htrr] at h
          simp only [conclude, h]; exact .read e D _ hx hk hw hres (by rw [← he]; exact hh)
  | write =>
    rw [exec_write hk hw]
    unfold validateThen
    rcases validate_cases (fcMap i).1 (startAddr i) (writtenVals i).length (enter .validate (latched i s)) with
      ⟨-, h⟩ | ⟨-, -, h⟩ | ⟨e, D, hres, h⟩
    · rw [h]; exact .raised _ _ hv
    · rw [h]; exact .raised _ _ hv
    · rw [h]
      rw [hcv] at hres
      rcases tableWrite_cases (fcMap i).1 (startAddr i) (writtenVals i) (enter .execute (latched i s)) with
        ⟨-, h⟩ | ⟨e', D', hres', h⟩
      · simp only [conclude, h]; exact .raised _ _ hx
      · rw [hc, hres] at hres'
        obtain ⟨rfl, rfl⟩ : e = e' ∧ D = D' := by simpa using hres'
        rcases h with ⟨-, h⟩ | ⟨hlen, -, ⟨-, hb, h⟩ | ⟨hh, h⟩⟩
        · simp only [conclude, h]; exact .raised _ _ hx
        · simp only [conclude, h]; exact .blocked (.inr ⟨hk, by rw [← he]; exact hb⟩)
        · rw [ht, htrw] at h
          simp only [conclude, h]
          exact .write e D _ hx hk hw (by rw [← writtenVals_length hk]; exact hres) hlen (by rw [← he]; exact hh)

end Sys2Proof.Machine
end

