-- ==== Sys2Proof/Laws/Memory.lean ====
section
/-! SUPPORT. The register table keeps its canonical form: the laws of reading and writing an entry, and the form kept by every operation that writes the table. -/

namespace Sys2Proof.Machine

/-! ### Reading and writing entries of a table in canonical form -/

theorem Memory.wf_length {rm : List Entry} {m : Memory} (h : Memory.wf rm m = true) : m.length = rm.length := by
  induction rm generalizing m with
  | nil => cases m <;> simp_all [Memory.wf]
  | cons D ds ih =>
    cases m with
    | nil => simp [Memory.wf] at h
    | cons us m =>
      simp only [Memory.wf, Bool.and_eq_true] at h
      simp [ih h.2]

/-- An entry of a table in canonical form holds exactly `count` units of its width (10_state.md R30). -/
theorem Memory.wf_entry {rm : List Entry} {m : Memory} {e : Nat} {D : Entry} (h : Memory.wf rm m = true)
    (hD : rm[e]? = some D) : ∃ us, m[e]? = some us ∧ us.length = D.count ∧ ∀ u ∈ us, unitFits D.space u = true := by
  induction rm generalizing m e with
  | nil => simp at hD
  | cons E ds ih =>
    cases m with
    | nil => simp [Memory.wf] at h
    | cons us m =>
      simp only [Memory.wf, Bool.and_eq_true, beq_iff_eq, List.all_eq_true] at h
      cases e with
      | zero =>
        obtain rfl : E = D := by simpa using hD
        exact ⟨us, by simp, h.1.1, h.1.2⟩
      | succ e => simpa using ih h.2 (by simpa using hD)

/-- Writing an entry with a value of its shape keeps the canonical form. -/
theorem Memory.wf_set {rm : List Entry} {m : Memory} {e : Nat} {D : Entry} {us : List Word} (h : Memory.wf rm m = true)
    (hD : rm[e]? = some D) (hlen : us.length = D.count) (hfit : ∀ u ∈ us, unitFits D.space u = true) :
    Memory.wf rm (m.set e us) = true := by
  induction rm generalizing m e with
  | nil => simp at hD
  | cons E ds ih =>
    cases m with
    | nil => simp [Memory.wf] at h
    | cons vs m =>
      simp only [Memory.wf, Bool.and_eq_true] at h
      cases e with
      | zero =>
        obtain rfl : E = D := by simpa using hD
        simp only [List.set_cons_zero, Memory.wf, Bool.and_eq_true, beq_iff_eq, List.all_eq_true]
        exact ⟨⟨hlen, hfit⟩, h.2⟩
      | succ e =>
        simp only [List.set_cons_succ, Memory.wf, Bool.and_eq_true]
        exact ⟨h.1, ih h.2 (by simpa using hD)⟩

/-- The table after reset is in canonical form (10_state.md R43). -/
theorem Memory.wf_ofMap {rm : List Entry} (h : ∀ D ∈ rm, D.wf) : Memory.wf rm (Memory.ofMap rm) = true := by
  induction rm with
  | nil => rfl
  | cons D ds ih =>
    obtain ⟨-, -, hlen, hfit⟩ := h D (by simp)
    simp only [Memory.ofMap, List.map_cons, Memory.wf, Bool.and_eq_true, beq_iff_eq, List.length_map, List.all_eq_true]
    refine ⟨⟨hlen, ?_⟩, ih (fun E hE => h E (by simp [hE]))⟩
    intro u hu
    obtain ⟨v, hv, rfl⟩ := List.mem_map.mp hu
    have hv := hfit v hv
    cases hb : D.space.isBit with
    | false => simp [unitFits, hb]
    | true =>
      have : v ≤ 1 := by simpa [Space.unitWf, hb] using hv
      simp only [unitFits, hb, BitVec.toNat_ofNat]
      simp
      omega

/-! ### Values of the shape of an entry -/

theorem fitUnit_fits (sp : Space) (u : Word) : unitFits sp (fitUnit sp u) = true := by
  cases hb : sp.isBit with
  | false => simp [unitFits, hb]
  | true =>
    have h : u.toNat % 2 ≤ 1 := by omega
    simpa [unitFits, fitUnit, hb] using h

@[simp] theorem fitUnits_length (D : Entry) (us : List Word) : (fitUnits D us).length = D.count := by simp [fitUnits]

theorem fitUnits_fits {D : Entry} {us : List Word} {u : Word} (h : u ∈ fitUnits D us) : unitFits D.space u = true := by
  obtain ⟨k, -, rfl⟩ : ∃ k < D.count, fitUnit D.space (us.getD k 0) = u := by simpa [fitUnits] using h
  exact fitUnit_fits _ _

theorem fitUnit_eq {sp : Space} {u : Word} (h : unitFits sp u = true) : fitUnit sp u = u := by
  cases hb : sp.isBit with
  | false => simp [fitUnit, hb]
  | true =>
    have h : u.toNat ≤ 1 := by simpa [unitFits, hb] using h
    rw [fitUnit, hb, if_pos rfl]
    rcases (show u.toNat = 0 ∨ u.toNat = 1 by omega) with h0 | h1
    · rw [show u = 0#16 from BitVec.eq_of_toNat_eq h0]; rfl
    · rw [show u = 1#16 from BitVec.eq_of_toNat_eq h1]; rfl

/-- An on-read answer that has the entry's shape is stored as it is (20_memory.md R62; log 8). -/
theorem fitUnits_eq {D : Entry} {us : List Word} (hlen : us.length = D.count) (h : ∀ u ∈ us, unitFits D.space u = true) :
    fitUnits D us = us := by
  apply List.ext_getElem
  · simp [hlen]
  · intro k hk hk'
    simp only [fitUnits, List.getElem_map, List.getElem_range]
    rw [List.getD_eq_getElem?_getD, List.getElem?_eq_getElem hk', Option.getD_some]
    exact fitUnit_eq (h _ (List.getElem_mem hk'))

theorem ofNat_fits {sp : Space} {v : Nat} (h : sp.unitWf v) : unitFits sp (BitVec.ofNat 16 v) = true := by
  cases hb : sp.isBit with
  | false => simp [unitFits, hb]
  | true =>
    have : v ≤ 1 := by simpa [Space.unitWf, hb] using h
    simp [unitFits, hb]
    omega

/-! ### The operations keep the form -/

theorem tableAfterRead_wf {s : State} {rm : List Entry} {e : Nat} {D : Entry} (h : Memory.wf rm s.tbl = true)
    (hD : rm[e]? = some D) : Memory.wf rm (tableAfterRead e D s) = true := by
  unfold tableAfterRead
  split
  · exact Memory.wf_set h hD (fitUnits_length D _) (fun u hu => fitUnits_fits hu)
  · exact h

/-- Every request keeps the table's form. -/
theorem exec_keeps_wf {i : Instr} {s t : State} (h : Memory.wf s.cfg.regmap s.tbl = true) (he : exec i s = .next t) :
    t.cfg = s.cfg ∧ Memory.wf t.cfg.regmap t.tbl = true := by
  have hend := exec_ending i s
  rw [he] at hend
  cases hend with
  | raised c u hu =>
    obtain ⟨hc, ht, -⟩ := hu.agrees
    exact ⟨hc, by simpa [hc, ht] using h⟩
  | read e D u hu hk hw hres hhook =>
    obtain ⟨hc, ht, -⟩ := hu.agrees
    exact ⟨hc, by simpa [hc] using tableAfterRead_wf h (resolve_some hres).1⟩
  | write e D u hu hk hw hres hlen hhook =>
    obtain ⟨hc, ht, -⟩ := hu.agrees
    refine ⟨hc, ?_⟩
    simp only [respond_cfg, respond_tbl, hc]
    refine Memory.wf_set h (resolve_some hres).1 (by simpa using hlen) ?_
    intro u hu
    obtain ⟨v, hv, rfl⟩ := List.mem_map.mp hu
    rw [(resolve_some hres).2.1]
    exact ofNat_fits (writtenVals_fit i v hv)

end Sys2Proof.Machine
end

