-- ==== Sys2Proof/Laws/Poll.lean ====
section
/-! SUPPORT. What the transport front ends, the transmit and a whole poll can do, each said once. -/

namespace Sys2Proof.Machine

/-! ### Front ends -/

/-- The RTU front end latches an accepted frame or leaves the state as it is (40_framing.md R112). -/
theorem frontEndRTU_cases (s : State) :
    frontEndRTU s = s ∨ ∃ f, s.env.rx = .bytes f ∧ rtuDrop s.cfg f = none ∧ frontEndRTU s = latchRTU f s := by
  unfold frontEndRTU
  cases hrx : s.env.rx with
  | timeout => simp
  | empty => simp
  | ioError => simp
  | bytes f =>
    cases hd : rtuDrop s.cfg f with
    | some r => exact .inl (by simp [parseRTU, hd])
    | none => exact .inr ⟨f, rfl, hd, by simp [parseRTU, hd]⟩

/-- The part of a TCP poll before the socket is looked at (40_framing.md R120). -/
def afterLink (s : State) : State := noteLink (advanceCursor s)

/-- What a TCP poll does to the inspected slot: the one change of the pool it makes (40_framing.md R120 to R124). -/
theorem pollTCP_cases (s : State) :
    (linkExpired (afterLink s) = true ∧ pollTCP s = forceCloseSlot s.mux.cursor (afterLink s)) ∨
    (linkExpired (afterLink s) = false ∧
      ((s.env.sock = .notConnectedClosed ∧ pollTCP s = replaceSlot s.mux.cursor (afterLink s)) ∨
       (s.env.sock = .notConnectedOpen ∧ pollTCP s = markClosing s.mux.cursor (afterLink s)) ∨
       (s.env.sock = .connected ∧ (∀ f, s.env.rx = .bytes f → mbapDrop s.cfg f ≠ none) ∧
          pollTCP s = markConnected s.mux.cursor (afterLink s)) ∨
       (∃ f, s.env.sock = .connected ∧ s.env.rx = .bytes f ∧ mbapDrop s.cfg f = none ∧
          pollTCP s = latchMBAP f s.mux.cursor (markConnected s.mux.cursor (afterLink s))))) := by
  unfold pollTCP
  simp only [afterLink]
  cases hx : linkExpired (noteLink (advanceCursor s)) with
  | true => simp
  | false =>
    refine .inr ⟨rfl, ?_⟩
    simp only [inspectSlot, noteLink_env, advanceCursor_env]
    cases hs : s.env.sock with
    | notConnectedClosed => simp
    | notConnectedOpen => simp
    | connected =>
      cases hrx : s.env.rx with
      | timeout => simp
      | empty => simp
      | ioError => simp
      | bytes f =>
        cases hd : mbapDrop s.cfg f with
        | some r => simp [parseMBAP, hd]
        | none => exact .inr (.inr (.inr ⟨f, rfl, rfl, hd, by simp [parseMBAP, hd]⟩))

/-- No front end touches the configuration, the table, the dispatcher, the response, the tape, the inputs or the time. -/
theorem frontEnd_frame (s : State) :
    (frontEnd s).cfg = s.cfg ∧ (frontEnd s).tbl = s.tbl ∧ (frontEnd s).disp = s.disp ∧ (frontEnd s).rsp = s.rsp ∧
    (frontEnd s).pending = s.pending ∧ (frontEnd s).env = s.env ∧ (frontEnd s).now = s.now := by
  unfold frontEnd
  cases ht : s.cfg.transport with
  | rtu =>
    rcases frontEndRTU_cases s with h | ⟨f, -, -, h⟩ <;> simp [h]
  | tcp =>
    rcases pollTCP_cases s with ⟨-, h⟩ | ⟨-, ⟨-, h⟩ | ⟨-, h⟩ | ⟨-, -, h⟩ | ⟨f, -, -, -, h⟩⟩ <;> simp [h, afterLink]

/-! ### Transmit and return -/

/-- No transmit touches anything but the pool's activity times and what the outside has seen. -/
theorem transmit_frame (s : State) :
    (transmit s).cfg = s.cfg ∧ (transmit s).tbl = s.tbl ∧ (transmit s).disp = s.disp ∧ (transmit s).req = s.req ∧
    (transmit s).rsp = s.rsp ∧ (transmit s).pending = s.pending ∧ (transmit s).env = s.env ∧ (transmit s).now = s.now ∧
    (transmit s).mux.cursor = s.mux.cursor ∧ (transmit s).mux.inflight = s.mux.inflight ∧
    (transmit s).mux.linkDownSince = s.mux.linkDownSince := by
  unfold transmit
  cases ht : s.cfg.transport with
  | rtu => simp
  | tcp =>
    simp only [sendMBAP]
    cases hi : s.mux.inflight with
    | none => simp [hi]
    | some j =>
      cases hok : s.env.sendOk <;> simp [hi]

/-! ### A request from its latch to its end -/

/-- The latched request ends in an exception the decoder raised or in one of the endings of its instruction (41_dispatch.md R134). -/
theorem handle_cases (s : State) :
    (∃ c, decode s.req.pdu = .raise c ∧ handle s = .next (takeException c s)) ∨
    (∃ i, decode s.req.pdu = .instr i ∧ handle s = exec i s) := by
  unfold handle
  cases hd : decode s.req.pdu with
  | raise c => exact .inl ⟨c, rfl, rfl⟩
  | instr i => exact .inr ⟨i, rfl, rfl⟩

/-- A request leaves the configuration, the pool, the tape, the inputs and the time as they are. -/
theorem exec_frame {i : Instr} {s t : State} (he : exec i s = .next t) :
    t.cfg = s.cfg ∧ t.mux = s.mux ∧ t.pending = s.pending ∧ t.env = s.env ∧ t.now = s.now ∧ t.disp = .respond ∧
    t.req.fc = s.req.fc ∧ t.req.valid = s.req.valid ∧ t.req.peer = s.req.peer ∧ t.req.unit = s.req.unit ∧
    t.req.tid = s.req.tid ∧ t.req.pdu = s.req.pdu := by
  have hend := exec_ending i s
  rw [he] at hend
  cases hend with
  | raised c u hu =>
    obtain ⟨h1, -, -, h4, h5, h6, h7, -, h9, h10, h11, h12, h13, h14⟩ := hu.agrees
    exact ⟨h1, h4, h5, h6, h7, rfl, h9, h10, h11, h12, h13, h14⟩
  | read e D u hu hk hw hres hhook =>
    obtain ⟨h1, -, -, h4, h5, h6, h7, -, h9, h10, h11, h12, h13, h14⟩ := hu.agrees
    exact ⟨h1, h4, h5, h6, h7, rfl, h9, h10, h11, h12, h13, h14⟩
  | write e D u hu hk hw hres hlen hhook =>
    obtain ⟨h1, -, -, h4, h5, h6, h7, -, h9, h10, h11, h12, h13, h14⟩ := hu.agrees
    exact ⟨h1, h4, h5, h6, h7, rfl, h9, h10, h11, h12, h13, h14⟩

theorem handle_frame {s t : State} (h : handle s = .next t) :
    t.cfg = s.cfg ∧ t.mux = s.mux ∧ t.pending = s.pending ∧ t.env = s.env ∧ t.now = s.now ∧ t.disp = .respond ∧
    t.req.fc = s.req.fc ∧ t.req.valid = s.req.valid ∧ t.req.peer = s.req.peer ∧ t.req.unit = s.req.unit ∧
    t.req.tid = s.req.tid ∧ t.req.pdu = s.req.pdu := by
  rcases handle_cases s with ⟨c, -, hh⟩ | ⟨i, -, hh⟩
  · rw [hh] at h; cases h; exact ⟨rfl, rfl, rfl, rfl, rfl, rfl, rfl, rfl, rfl, rfl, rfl, rfl⟩
  · rw [hh] at h; exact exec_frame h

/-- A poll either has no request and goes back to `Idle`, or handles the latched one (41_dispatch.md R130, R134). -/
theorem poll_cases (s : State) :
    ((frontEnd (enter .awaitRequest s)).req.valid = false ∧
      poll s = .next (enter .idle (frontEnd (enter .awaitRequest s)))) ∨
    ((frontEnd (enter .awaitRequest s)).req.valid = true ∧
      poll s = finishHandled (handle (frontEnd (enter .awaitRequest s)))) := by
  unfold poll
  cases hv : (frontEnd (enter .awaitRequest s)).req.valid <;> simp [hv]

theorem finishHandled_next {o : Result} {t : State} (h : finishHandled o = .next t) :
    ∃ u, o = .next u ∧ t = finishPoll u := by
  cases o with
  | next u => exact ⟨u, rfl, by simpa [finishHandled] using h.symm⟩
  | fault f => simp [finishHandled] at h
  | refused r => simp [finishHandled] at h

/-! ### A step -/

theorem step_poll {s : State} {p : PollInput} {rest : List Event} (h : s.pending = .poll p :: rest) :
    step s = poll (takeInputs p { s with pending := rest }) := by
  simp [step, runNext, runEvent, h]

theorem step_hardReset {s : State} {e : Nat} {rest : List Event} (h : s.pending = .hardReset e :: rest) :
    step s = hardReset e { s with pending := rest } := by
  simp [step, runNext, runEvent, h]

/-- Every step: nothing to do, a poll, or a hard reset. -/
theorem step_cases (s : State) :
    (s.pending = [] ∧ step s = .next s) ∨
    (∃ p rest, s.pending = .poll p :: rest ∧ step s = poll (takeInputs p { s with pending := rest })) ∨
    (∃ e rest, s.pending = .hardReset e :: rest ∧ step s = hardReset e { s with pending := rest }) := by
  cases hp : s.pending with
  | nil => exact .inl ⟨rfl, by simp [step, runNext, hp]⟩
  | cons ev rest =>
    cases ev with
    | poll p => exact .inr (.inl ⟨p, rest, rfl, step_poll hp⟩)
    | hardReset e => exact .inr (.inr ⟨e, rest, rfl, step_hardReset hp⟩)

end Sys2Proof.Machine
end

