-- ==== Sys2Proof/Laws/Framing.lean ====
section
/-! SUPPORT. The framers' checks as conditions, the CRC on a word whose low bits are clear, and the link timer. -/

namespace Sys2Proof.Machine

/-! ### The checks of the framers -/

/-- The unit-id filter (40_framing.md R127). -/
theorem unitAccepted_iff (c : Cfg) (u : Byte) : unitAccepted c u = true ↔ ∀ us, c.unitAllow = some us → u ∈ us := by
  unfold unitAccepted
  cases c.unitAllow <;> simp

/-- The frames RTU accepts (40_framing.md R112). -/
theorem rtuDrop_none {c : Cfg} {f : List Byte} :
    rtuDrop c f = none ↔
      4 ≤ f.length ∧ f.drop (f.length - 2) = u16le (crc16 (f.take (f.length - 2))) ∧ f.length - 3 ≤ c.limits.maxPdu ∧
      ∀ us, c.unitAllow = some us → f.getD 0 0 ∈ us := by
  unfold rtuDrop
  rw [← unitAccepted_iff]
  split_ifs with h1 h2 h3 h4
  · simp; omega
  · simp [h2]
  · simp; omega
  · rw [Bool.not_eq_true'] at h4
    simp only [false_iff]
    intro h
    rw [h.2.2.2] at h4
    cases h4
  · rw [Bool.not_eq_true', Bool.not_eq_false] at h4
    simp only [ne_eq, not_not] at h2
    simp only [true_iff]
    exact ⟨by omega, h2, by omega, h4⟩

/-- The frames TCP accepts (40_framing.md R116). -/
theorem mbapDrop_none {c : Cfg} {f : List Byte} :
    mbapDrop c f = none ↔
      7 ≤ f.length ∧ be16 f 2 = 0 ∧ 2 ≤ (be16 f 4).toNat ∧ (be16 f 4).toNat - 1 ≤ c.limits.maxPdu ∧
      6 + (be16 f 4).toNat ≤ f.length ∧ (c.limits.tcpTrailing = .drop → f.length = 6 + (be16 f 4).toNat) ∧
      ∀ us, c.unitAllow = some us → f.getD 6 0 ∈ us := by
  unfold mbapDrop
  rw [← unitAccepted_iff]
  generalize (be16 f 4).toNat = n
  split_ifs with h1 h2 h3 h4 h5 h6 h7
  · simp; omega
  · simp only [false_iff]; exact fun h => h2 h.2.1
  · simp only [false_iff]; omega
  · simp only [false_iff]; omega
  · simp only [false_iff]; omega
  · simp only [false_iff]
    intro h
    have := h.2.2.2.2.2.1 h6.2
    omega
  · rw [Bool.not_eq_true'] at h7
    simp only [false_iff]
    intro h
    rw [h.2.2.2.2.2.2] at h7
    cases h7
  · rw [Bool.not_eq_true', Bool.not_eq_false] at h7
    simp only [ne_eq, not_not] at h2
    simp only [true_iff]
    refine ⟨by omega, h2, by omega, by omega, by omega, fun ht => ?_, h7⟩
    by_contra hne
    exact h6 ⟨by omega, ht⟩

/-! ### The link timer -/

/-- The link-down time after a poll (10_state.md R39). -/
theorem linkDownAfter_eq (up : Bool) (now : Nat) (since : Option Nat) :
    linkDownAfter up now since = if up then none else some (since.getD now) := by
  cases up <;> cases since <;> simp [linkDownAfter]

/-- The close condition (40_framing.md R121). -/
theorem linkExpired_afterLink (s : State) :
    linkExpired (afterLink s) = (!s.env.linkUp && decide (s.cfg.linkCloseMs ≤ s.now - s.mux.linkDownSince.getD s.now)) := by
  unfold linkExpired afterLink noteLink advanceCursor
  simp only [linkDownAfter_eq]
  cases s.env.linkUp
  · rfl
  · rfl

/-- A link that is up, or not down for the close time, is not expired (40_framing.md R121). -/
theorem linkExpired_afterLink_eq_false {s : State}
    (h : s.env.linkUp = true ∨ s.now - s.mux.linkDownSince.getD s.now < s.cfg.linkCloseMs) : linkExpired (afterLink s) = false := by
  rw [linkExpired_afterLink]
  rcases h with h | h
  · simp [h]
  · rw [decide_eq_false (by omega), Bool.and_false]

/-! ### Accepted frames -/

/-- A non-empty slice of a byte string begins with the byte at its offset. -/
theorem take_drop_cons {f : List Byte} {k n : Nat} (hn : 1 ≤ n) (h : k + n ≤ f.length) :
    ∃ r, (f.drop k).take n = f.getD k 0 :: r ∧ (f.getD k 0 :: r).length = n := by
  have hk : k < f.length := by omega
  obtain ⟨m, rfl⟩ : ∃ m, n = m + 1 := ⟨n - 1, by omega⟩
  refine ⟨(f.drop (k + 1)).take m, ?_, by simp; omega⟩
  rw [List.drop_eq_getElem_cons hk, List.take_succ_cons, List.getD_eq_getElem?_getD, List.getElem?_eq_getElem hk, Option.getD_some]

/-- The PDU of an accepted RTU frame: its first byte is the frame's second, and it is three bytes shorter (40_framing.md R112). -/
theorem rtuPdu_cons {c : Cfg} {f : List Byte} (h : rtuDrop c f = none) :
    ∃ r, rtuPdu f = f.getD 1 0 :: r ∧ (f.getD 1 0 :: r).length = f.length - 3 := by
  obtain ⟨hlen, -⟩ := rtuDrop_none.mp h
  exact take_drop_cons (by omega) (by omega)

/-- The PDU of an accepted TCP frame: its first byte is the frame's eighth, and it has `length - 1` bytes (40_framing.md R116). -/
theorem mbapPdu_cons {c : Cfg} {f : List Byte} (h : mbapDrop c f = none) :
    ∃ r, mbapPdu f = f.getD 7 0 :: r ∧ (f.getD 7 0 :: r).length = (be16 f 4).toNat - 1 := by
  obtain ⟨-, -, h2, -, hlen, -⟩ := mbapDrop_none.mp h
  exact take_drop_cons (by omega) (by omega)

/-- With RTU the front end latches an accepted frame (40_framing.md R112). -/
theorem frontEnd_latchRTU {s : State} {f : List Byte} (ht : s.cfg.transport = .rtu) (hrx : s.env.rx = .bytes f)
    (h : rtuDrop s.cfg f = none) : frontEnd s = latchRTU f s := by
  simp [frontEnd, frontEndRTU, parseRTU, ht, hrx, h]

/-- With TCP the front end latches a frame accepted on a connected socket (40_framing.md R116, R120). -/
theorem frontEnd_latchMBAP {s : State} {f : List Byte} (ht : s.cfg.transport = .tcp)
    (hl : s.env.linkUp = true ∨ s.now - s.mux.linkDownSince.getD s.now < s.cfg.linkCloseMs) (hs : s.env.sock = .connected)
    (hrx : s.env.rx = .bytes f) (h : mbapDrop s.cfg f = none) :
    frontEnd s = latchMBAP f s.mux.cursor (markConnected s.mux.cursor (afterLink s)) := by
  have hx := linkExpired_afterLink_eq_false hl
  unfold afterLink at hx
  simp [frontEnd, pollTCP, inspectSlot, parseMBAP, afterLink, ht, hx, hs, hrx, h]

/-- A poll with a latched request that the decoder rejects ends with the exception transmitted (41_dispatch.md R134). -/
theorem poll_raise {s : State} {c : ExceptionCode} (hv : (frontEnd (enter .awaitRequest s)).req.valid = true)
    (hd : decode (frontEnd (enter .awaitRequest s)).req.pdu = .raise c) :
    poll s = .next (finishPoll (takeException c (frontEnd (enter .awaitRequest s)))) := by
  simp [poll, hv, handle, hd, finishHandled]

/-! ### The CRC -/

/-- Bit steps on a word whose low bits are clear only shift it (40_framing.md R111). -/
theorem crcBits_of_low_clear (n : Nat) (c : Word) (h : ∀ i < n, c.getLsbD i = false) : crcBits n c = c >>> n := by
  induction n generalizing c with
  | zero => simp [crcBits]
  | succ n ih =>
    have h0 := h 0 (by omega)
    rw [crcBits, crcBit, h0]
    simp only [Bool.false_eq_true, if_false]
    rw [ih]
    · rw [← BitVec.shiftRight_add, Nat.add_comm]
    · intro i hi
      simpa [BitVec.getLsbD_ushiftRight, Nat.add_comm] using h (i + 1) (by omega)

@[simp] theorem crc16_nil : crc16 [] = 0xFFFF := rfl

theorem crc16_append (s t : List Byte) : crc16 (s ++ t) = t.foldl crcByte (crc16 s) := by simp [crc16]

end Sys2Proof.Machine
end

