-- ==== Sys2Proof/Laws/PerInstr.lean ====
section
/-! SUPPORT. A statement made for every instruction, one lemma per constructor: the head and the least length of its encoding. -/

namespace Sys2Proof.Laws.EncodeHead

/-- An encoded request begins with its function code, whose bit 7 is clear (30_encoding.md R82, R83), and has the bytes of its fixed fields (R84, R87, R88). -/
def Statement (i : Instr) : Prop := (encode i).head? = some i.fc ∧ i.fc.msb = false ∧ 5 ≤ (encode i).length

theorem readCoils (addr qty : Word) : Statement (.readCoils addr qty) := ⟨rfl, Instr.fc_msb _, by simp [encode, u16be]⟩

theorem readDiscreteInputs (addr qty : Word) : Statement (.readDiscreteInputs addr qty) := ⟨rfl, Instr.fc_msb _, by simp [encode, u16be]⟩

theorem readHoldingRegisters (addr qty : Word) : Statement (.readHoldingRegisters addr qty) := ⟨rfl, Instr.fc_msb _, by simp [encode, u16be]⟩

theorem readInputRegisters (addr qty : Word) : Statement (.readInputRegisters addr qty) := ⟨rfl, Instr.fc_msb _, by simp [encode, u16be]⟩

theorem writeSingleCoil (addr value : Word) : Statement (.writeSingleCoil addr value) := ⟨rfl, Instr.fc_msb _, by simp [encode, u16be]⟩

theorem writeSingleRegister (addr value : Word) : Statement (.writeSingleRegister addr value) := ⟨rfl, Instr.fc_msb _, by simp [encode, u16be]⟩

theorem writeMultipleCoils (addr qty : Word) (bc : Byte) (data : List Byte) : Statement (.writeMultipleCoils addr qty bc data) :=
  ⟨rfl, Instr.fc_msb _, by simp [encode, u16be]⟩

theorem writeMultipleRegisters (addr qty : Word) (bc : Byte) (data : List Byte) : Statement (.writeMultipleRegisters addr qty bc data) :=
  ⟨rfl, Instr.fc_msb _, by simp [encode, u16be]⟩

end Sys2Proof.Laws.EncodeHead
end

