-- ==== Sys2Proof/Laws/Pool.lean ====
section
/-! SUPPORT. What a poll does to the connection pool: the front end changes one slot, the transmit at most one activity time. -/

namespace Sys2Proof.Machine

/-- The TCP front end changes the inspected slot, the cursor, the link-down time and what is in flight, and keeps every activity time in the past
(40_framing.md R120, R126). -/
theorem frontEnd_tcp {s : State} (ht : s.cfg.transport = .tcp) :
    (frontEnd s).mux.cursor = (s.mux.cursor + 1) % s.cfg.maxConn ∧
    (frontEnd s).mux.linkDownSince = linkDownAfter s.env.linkUp s.now s.mux.linkDownSince ∧
    ∃ g : Slot → Slot, (frontEnd s).mux.slots = s.mux.slots.modify s.mux.cursor g ∧
      ∀ c : Slot, c.lastActivity ≤ s.now → (g c).lastActivity ≤ s.now := by
  rw [show frontEnd s = pollTCP s by simp [frontEnd, ht]]
  rcases pollTCP_cases s with ⟨-, h⟩ | ⟨-, ⟨-, h⟩ | ⟨-, h⟩ | ⟨-, -, h⟩ | ⟨f, -, -, -, h⟩⟩ <;> rw [h]
  · exact ⟨rfl, rfl, _, rfl, fun c hc => hc⟩
  · exact ⟨rfl, rfl, _, rfl, fun c _ => Nat.le_refl _⟩
  · refine ⟨rfl, rfl, _, rfl, fun c hc => ?_⟩
    split
    · exact hc
    · exact hc
  · exact ⟨rfl, rfl, _, rfl, fun c hc => hc⟩
  · refine ⟨rfl, rfl, fun c => { c with live := .connected, lastActivity := s.now }, ?_, fun c _ => Nat.le_refl _⟩
    simp [latchMBAP, touchSlot, modifySlot, markConnected, afterLink, noteLink, advanceCursor, List.modify_modify_eq]
    rfl

/-- The RTU front end does not touch the pool (10_state.md R40). -/
theorem frontEnd_rtu {s : State} (ht : s.cfg.transport = .rtu) : (frontEnd s).mux = s.mux := by
  rw [show frontEnd s = frontEndRTU s by simp [frontEnd, ht]]
  rcases frontEndRTU_cases s with h | ⟨f, -, -, h⟩ <;> simp [h]

/-- A transmit changes no slot, or the activity time of the slot in flight (40_framing.md R113, R117). -/
theorem transmit_slots (s : State) :
    (transmit s).mux.slots = s.mux.slots ∨
    ∃ j, s.mux.inflight = some j ∧ (transmit s).mux.slots = s.mux.slots.modify j (fun c => { c with lastActivity := s.now }) := by
  unfold transmit
  cases s.cfg.transport with
  | rtu => exact .inl rfl
  | tcp =>
    simp only [sendMBAP]
    cases s.mux.inflight with
    | none => exact .inl rfl
    | some j =>
      cases s.env.sendOk with
      | false => exact .inl rfl
      | true => exact .inr ⟨j, rfl, rfl⟩

/-- A slot of a modified pool is a modified slot or one of the old ones. -/
theorem mem_modify {ss : List Slot} {i : Nat} {g : Slot → Slot} {c : Slot} (h : c ∈ ss.modify i g) :
    c ∈ ss ∨ ∃ d ∈ ss, c = g d := by
  obtain ⟨k, hk⟩ := List.mem_iff_getElem?.mp h
  rw [List.getElem?_modify] at hk
  cases hs : ss[k]? with
  | none => simp [hs] at hk
  | some d =>
    by_cases hik : i = k
    · exact .inr ⟨d, List.mem_of_getElem? hs, by simpa [hs, hik] using hk.symm⟩
    · obtain rfl : d = c := by simpa [hs, hik] using hk
      exact .inl (List.mem_of_getElem? hs)

end Sys2Proof.Machine
end

