-- ==== Sys2Proof/Tests/Slice0.lean ====
section
/-! SUPPORT. Tests on single steps, their expected results taken from 95_test_vectors.md and from the rules' own examples, and for each obligation with hypotheses a witness that meets them. -/

namespace Sys2Proof.Tests

open Sys2Proof.Machine

/-! ### Small states -/

/-- The reset state (TCP, map T, two slots) with a tape of events. -/
def tcp (evs : List Event) : State := { State.reset with pending := evs }

/-- The reset state of the RTU vectors (map T, unit 0x01) with a tape of events. -/
def rtu (evs : List Event) : State :=
  { State.ofCfg (Cfg.ofParams Config.rtuParams Config.mapT) 0 with pending := evs }

/-- The reset state with its limits changed. -/
def withLimits (lim : Limits) (s : State) : State := { s with cfg := { s.cfg with limits := lim } }

/-- The reset state over another register map. -/
def withMap (rm : List Entry) : State := State.ofCfg { Config.resetCfg with regmap := rm } 0

/-- A poll on a connected socket that receives the bytes `f`. -/
def received (f : List Byte) : PollInput := { PollInput.quiet with sock := .connected, rx := .bytes f }

/-- A request of function code `fc` is latched on slot 0. -/
def latchedOn (fc : Byte) (s : State) : State :=
  { s with disp := .awaitRequest, req := { valid := true, peer := .slot 0, fc := fc }, mux := { s.mux with inflight := some 0 } }

/-- The reset state with a request of function code `fc` latched. -/
def serving (fc : Byte) : State := latchedOn fc State.reset

/-- The next state of an outcome. -/
def nextOf : Result → Option State
  | .next t => some t
  | .fault _ => none
  | .refused _ => none

/-- The response of an outcome. -/
def rspOf (o : Result) : Option (List Byte) := (nextOf o).map (fun t => t.rsp)

/-- The table of an outcome. -/
def tblOf (o : Result) : Option Memory := (nextOf o).map (fun t => t.tbl)

/-- What the outside has seen after an outcome. -/
def traceOf (o : Result) : Option (List Action) := (nextOf o).map (fun t => t.trace)

/-- The step, or the meaning, answers a next state. -/
theorem next_of_isSome {o : Result} (h : (nextOf o).isSome = true) : ∃ t, o = .next t := by
  cases o with
  | next t => exact ⟨t, rfl⟩
  | fault f => simp [nextOf] at h
  | refused r => simp [nextOf] at h

/-- A run answers a next state. -/
def ran {σ φ ρ : Type} : Host.Outcome σ φ ρ → Bool
  | .next _ => true
  | .fault _ => false
  | .refused _ => false

theorem next_of_ran {σ φ ρ : Type} {o : Host.Outcome σ φ ρ} (h : ran o = true) : ∃ t, o = .next t := by
  cases o with
  | next t => exact ⟨t, rfl⟩
  | fault f => cases h
  | refused r => cases h

/-! ### WellFormed refuses each ill-formed term (30_encoding.md R88, R92, R93; 10_state.md R24 to R29) -/

theorem test_wf_read_qty_zero : ¬ (Instr.readCoils 0x0100 0).wf {} := by decide
theorem test_wf_read_qty_max : (Instr.readDiscreteInputs 0x0100 2000).wf {} ∧ ¬ (Instr.readDiscreteInputs 0x0100 2001).wf {} := by decide
theorem test_wf_read_regs_max : (Instr.readHoldingRegisters 0 125).wf {} ∧ ¬ (Instr.readHoldingRegisters 0 126).wf {} := by decide
theorem test_wf_read_input_max : (Instr.readInputRegisters 0 125).wf {} ∧ ¬ (Instr.readInputRegisters 0 126).wf {} := by decide
theorem test_wf_coil_value : (Instr.writeSingleCoil 0 0xFF00).wf {} ∧ ¬ (Instr.writeSingleCoil 0 0x0001).wf {} := by decide
theorem test_wf_coils_qty : ¬ (Instr.writeMultipleCoils 0 0 0 []).wf {} := by decide
theorem test_wf_coils_byte_count : ¬ (Instr.writeMultipleCoils 0x0100 4 2 [5, 0]).wf {} := by decide
theorem test_wf_coils_data : ¬ (Instr.writeMultipleCoils 0x0100 4 1 []).wf {} := by decide
theorem test_wf_regs_qty : ¬ (Instr.writeMultipleRegisters 0x0200 0x7C 0xF8 []).wf {} := by decide
theorem test_wf_regs_byte_count : ¬ (Instr.writeMultipleRegisters 0x0200 2 3 [0x12, 0x34, 0x56]).wf {} := by decide
theorem test_wf_regs_data : ¬ (Instr.writeMultipleRegisters 0x0200 1 2 [0x12]).wf {} := by decide

/-- A sound entry, one word at the last address. -/
def lastWord : Entry := { space := .holdingRegister, name := "", base := 0xFFFF, count := 1, init := [0xFFFF], hasOnRead := false, hasOnWrite := false }

theorem test_wf_entry : lastWord.wf := by decide
theorem test_wf_entry_count : ¬ { lastWord with count := 0, init := [] }.wf := by decide
theorem test_wf_entry_range : ¬ { lastWord with count := 2, init := [0, 0] }.wf := by decide
theorem test_wf_entry_init_length : ¬ { lastWord with init := [0, 0] }.wf := by decide
theorem test_wf_entry_word_width : ¬ { lastWord with init := [0x10000] }.wf := by decide
theorem test_wf_entry_bit_width : ¬ { lastWord with space := .coil, init := [2] }.wf := by decide
theorem test_wf_map_overlap : ¬ regmapWf [lastWord, lastWord] := by decide
theorem test_wf_map_two_spaces : regmapWf [lastWord, { lastWord with space := .inputRegister }] := by decide
theorem test_wf_cfg : Config.resetCfg.wf ∧ (rtu []).cfg.wf := by decide
theorem test_wf_cfg_no_slot : ¬ { Config.resetCfg with maxConn := 0 }.wf := by decide
theorem test_wf_cfg_rtu_no_filter : ¬ { (rtu []).cfg with unitAllow := none }.wf := by decide
theorem test_wf_cfg_rtu_empty_filter : ¬ { (rtu []).cfg with unitAllow := some [] }.wf := by decide
theorem test_wf_cfg_close_time : ¬ { Config.resetCfg with linkCloseMs := 4999 }.wf := by decide

/-! ### Decoding: words written out from 30_encoding.md R84, R87, R88 -/

theorem test_decode_readCoils : decode [0x01, 0x00, 0x13, 0x00, 0x0A] = .instr (.readCoils 19 10) := by decide
theorem test_decode_readDiscreteInputs : decode [0x02, 0x12, 0x34, 0x07, 0xD0] = .instr (.readDiscreteInputs 0x1234 2000) := by decide
theorem test_decode_readHoldingRegisters : decode [0x03, 0x02, 0x00, 0x00, 0x02] = .instr (.readHoldingRegisters 512 2) := by decide
theorem test_decode_readInputRegisters : decode [0x04, 0x05, 0x01, 0x00, 0x01] = .instr (.readInputRegisters 0x0501 1) := by decide
theorem test_decode_writeSingleCoil : decode [0x05, 0xFF, 0xFF, 0x12, 0x34] = .instr (.writeSingleCoil 0xFFFF 0x1234) := by decide
theorem test_decode_writeSingleRegister : decode [0x06, 0x00, 0x01, 0xFF, 0xFE] = .instr (.writeSingleRegister 1 0xFFFE) := by decide
theorem test_decode_writeMultipleCoils :
    decode [0x0F, 0x00, 0x13, 0x00, 0x0A, 0x02, 0xCD, 0x01] = .instr (.writeMultipleCoils 19 10 2 [0xCD, 0x01]) := by decide
theorem test_decode_writeMultipleRegisters :
    decode [0x10, 0x00, 0x01, 0x00, 0x02, 0x04, 0x00, 0x0A, 0x01, 0x02] =
      .instr (.writeMultipleRegisters 1 2 4 [0x00, 0x0A, 0x01, 0x02]) := by decide
theorem test_decode_fixed_length :
    decode [0x03, 0x02, 0x00, 0x00, 0x02, 0x00] = .raise .illegalDataValue ∧ decode [0x10, 0x02, 0x00, 0x00, 0x02] = .raise .illegalDataValue := by
  decide
theorem test_decode_unsupported : decode [0x2B, 0x0E, 0x01, 0x00] = .raise .illegalFunction ∧ decode [0x81, 0x00] = .raise .illegalFunction := by
  decide
/-- The table gives a row 8 bits, the function code; the operand bytes are zeros. -/
theorem test_table_word : decodeTableWord 8 0x0F = some (.writeMultipleCoils 0 0 0 []) ∧ decodeTableWord 8 0x07 = none := by decide

/-! ### One request each (95_test_vectors.md, map T) -/

/-- V12 with T2 as program P2 step 6 leaves it: P2 step 7. -/
theorem test_readCoils : rspOf (exec (.readCoils 0x0013 10) { serving 0x01 with tbl := State.reset.tbl.set 2 [1, 0, 1, 1, 0, 0, 1, 1, 1, 0] }) =
    some [0x01, 0x02, 0xCD, 0x01] := by decide
/-- V26. -/
theorem test_readCoils_past_the_space : rspOf (exec (.readCoils 0xFFFF 2) (serving 0x01)) = some [0x81, 0x02] := by decide
/-- V13. -/
theorem test_readDiscreteInputs : rspOf (exec (.readDiscreteInputs 0x0000 8) (serving 0x02)) = some [0x02, 0x01, 0x83] := by decide
/-- V14: a slice. -/
theorem test_readDiscreteInputs_slice : rspOf (exec (.readDiscreteInputs 0x0001 7) (serving 0x02)) = some [0x02, 0x01, 0x41] := by decide
/-- V17. -/
theorem test_readInputRegisters : rspOf (exec (.readInputRegisters 0x0500 3) (serving 0x04)) = some [0x04, 0x06, 0x00, 0x01, 0x00, 0x02, 0x00, 0x03] := by decide
/-- V140: the hook's value is read, and the hook is given the request's address. -/
theorem test_readInputRegisters_hook :
    let o := exec (.readInputRegisters 0x0401 1)
      { serving 0x04 with env := { PollInput.quiet with onRead := .refreshed [0x1234, 0x5678] } }
    rspOf o = some [0x04, 0x02, 0x56, 0x78] ∧ traceOf o = some [.hookRead .inputRegister 0x0401] ∧
    tblOf o = some (State.reset.tbl.set 4 [0x1234, 0x5678]) := by decide
/-- E7, length 2. -/
theorem test_readHoldingRegisters :
    rspOf (exec (.readHoldingRegisters 0x0200 2) { serving 0x03 with tbl := State.reset.tbl.set 7 [0x1234, 0x5678] }) =
      some [0x03, 0x04, 0x12, 0x34, 0x56, 0x78] := by decide
/-- V24. -/
theorem test_readHoldingRegisters_limit : rspOf (exec (.readHoldingRegisters 0x0000 126) (serving 0x03)) = some [0x83, 0x03] := by decide
/-- V40. -/
theorem test_writeSingleCoil :
    let o := exec (.writeSingleCoil 0x0300 0xFF00) (serving 0x05)
    rspOf o = some [0x05, 0x03, 0x00, 0xFF, 0x00] ∧ traceOf o = some [.hookWrite .coil 0x0300 [1]] ∧
    tblOf o = some (State.reset.tbl.set 1 [1]) := by decide
/-- V47: the value is checked before the address. -/
theorem test_writeSingleCoil_value_first : rspOf (exec (.writeSingleCoil 0xFFFF 0x1234) (serving 0x05)) = some [0x85, 0x03] := by decide
/-- V49: no sign. -/
theorem test_writeSingleRegister :
    let o := exec (.writeSingleRegister 0x0001 0xFFFF) (serving 0x06)
    rspOf o = some [0x06, 0x00, 0x01, 0xFF, 0xFF] ∧ tblOf o = some (State.reset.tbl.set 6 [0xFFFF]) := by decide
/-- V50: T7 has two words. -/
theorem test_writeSingleRegister_part :
    let o := exec (.writeSingleRegister 0x0200 0x0005) (serving 0x06)
    rspOf o = some [0x86, 0x03] ∧ tblOf o = some State.reset.tbl := by decide
/-- V54: the unused bits are ignored. -/
theorem test_writeMultipleCoils :
    let o := exec (.writeMultipleCoils 0x0100 4 1 [0xF5]) (serving 0x0F)
    rspOf o = some [0x0F, 0x01, 0x00, 0x00, 0x04] ∧ traceOf o = some [.hookWrite .coil 0x0100 [1, 0, 1, 0]] ∧
    tblOf o = some (State.reset.tbl.set 0 [1, 0, 1, 0]) := by decide
/-- V56. -/
theorem test_writeMultipleCoils_byte_count : rspOf (exec (.writeMultipleCoils 0x0100 4 2 [0x05, 0x00]) (serving 0x0F)) = some [0x8F, 0x03] := by decide
/-- V60. -/
theorem test_writeMultipleRegisters :
    let o := exec (.writeMultipleRegisters 0x0300 3 6 [0xAA, 0xAA, 0xBB, 0xBB, 0xCC, 0xCC]) (serving 0x10)
    rspOf o = some [0x10, 0x03, 0x00, 0x00, 0x03] ∧ tblOf o = some (State.reset.tbl.set 8 [0xAAAA, 0xBBBB, 0xCCCC]) := by decide
/-- V61: the range exceeds T6, and T6 is unchanged. -/
theorem test_writeMultipleRegisters_past_entry :
    let o := exec (.writeMultipleRegisters 0x0001 2 4 [0x00, 0x0A, 0x01, 0x02]) (serving 0x10)
    rspOf o = some [0x90, 0x02] ∧ tblOf o = some State.reset.tbl := by decide
/-- V70: a space with no entries, on map S. -/
theorem test_undefined_space : rspOf (exec (.readHoldingRegisters 0x0000 1) (latchedOn 0x03 (withMap Config.mapS))) = some [0x83, 0x01] := by decide

/-! ### One poll each -/

/-- The frame of V14 of 95_test_vectors.md, to unit 1. -/
def frameV14 : List Byte := [0x01, 0x02, 0x00, 0x01, 0x00, 0x07, 0x68, 0x08]
/-- The received bytes of V111. -/
def frameV111 : List Byte := [0xAB, 0xCD, 0x00, 0x00, 0x00, 0x06, 0x11, 0x02, 0x00, 0x00, 0x00, 0x08]
/-- The received bytes of V113. -/
def frameV113 : List Byte := [0x12, 0x34, 0x00, 0x00, 0x00, 0x0B, 0x01, 0x10, 0x02, 0x00, 0x00, 0x02, 0x04, 0x12, 0x34, 0x56, 0x78]
/-- The frame of V98, function code 0x07. -/
def frameV98 : List Byte := [0x01, 0x07, 0x41, 0xE2]

/-- V14. -/
theorem test_poll_rtu : traceOf (step (rtu [.poll (received frameV14)])) = some [.send .bus [0x01, 0x02, 0x01, 0x41, 0x61, 0xB8] true] := by
  decide +kernel
/-- V98. -/
theorem test_poll_rtu_unsupported : traceOf (step (rtu [.poll (received frameV98)])) = some [.send .bus [0x01, 0x87, 0x01, 0x82, 0x30] true] := by
  decide +kernel
/-- V93: the CRC high byte first is dropped. -/
theorem test_poll_rtu_crc_order : traceOf (step (rtu [.poll (received [0x01, 0x03, 0x00, 0x00, 0x00, 0x01, 0x0A, 0x84])])) = some [] := by decide +kernel
/-- V28: a PDU one byte too long is answered, not dropped. -/
theorem test_poll_rtu_length : traceOf (step (rtu [.poll (received [0x01, 0x03, 0x02, 0x00, 0x00, 0x02, 0x00, 0x73, 0x53])])) =
    some [.send .bus [0x01, 0x83, 0x03, 0x01, 0x31] true] := by decide +kernel
/-- P3 step 2: a listening slot with no client. -/
theorem test_poll_listening : (nextOf (step (tcp [.poll PollInput.quiet]))).map (fun s => (s.trace, s.mux.cursor, s.mux.slots)) =
    some ([], 1, State.reset.mux.slots) := by decide
/-- V111: transaction id and unit are echoed. -/
theorem test_poll_tcp : traceOf (step (tcp [.poll (received frameV111)])) =
    some [.send (.slot 0) [0xAB, 0xCD, 0x00, 0x00, 0x00, 0x04, 0x11, 0x02, 0x01, 0x83] true] := by decide +kernel
/-- V130. -/
theorem test_poll_replaces : (nextOf (step (tcp [.poll { PollInput.quiet with sock := .notConnectedClosed }]))).map (fun t => (t.mux.cursor, t.mux.slots)) =
    some (1, [{ live := .listening, gen := 1, lastActivity := 0 }, { live := .listening, gen := 0, lastActivity := 0 }]) := by decide
/-- V132: the link down for 0 ms makes no difference. -/
theorem test_poll_link_down : (nextOf (step (tcp [.poll { received [0x00, 0x01, 0x00, 0x00, 0x00, 0x06, 0x01, 0x01, 0x01, 0x00, 0x00, 0x04] with linkUp := false }]))).map
      (fun t => (t.trace, t.mux.linkDownSince)) =
    some ([.send (.slot 0) [0x00, 0x01, 0x00, 0x00, 0x00, 0x04, 0x01, 0x01, 0x01, 0x00] true], some 0) := by decide +kernel
/-- The host's own placing of an instruction: the next step runs it. -/
theorem test_withFetchWord : traceOf (step (State.withFetchWord State.reset 8 0x01)) =
    some [.send (.slot 0) [0x00, 0x00, 0x00, 0x00, 0x00, 0x03, 0x01, 0x81, 0x03] true] := by decide +kernel

/-- Entry `Tk` of map T. -/
def T (k : Nat) : Entry := Config.mapT.getD k lastWord

/-! ### Witnesses: for each obligation with hypotheses, terms that meet them -/

theorem witness_boot : boot Config.resetParams Config.mapT 7 = .next (State.ofCfg Config.resetCfg 7) ∧ Config.resetParams.transport = .tcp :=
  ⟨rfl, rfl⟩

/-- Two sound rows of one space that share their last address. -/
def overlapping : List Entry := [lastWord, { lastWord with base := 0xFFFE, count := 2, init := [0, 0] }]

/-- Permitted parameters of either transport; a well-formed map; a last row that is unsound, and one that is sound and overlaps the row before it. -/
theorem witness_bootSucceeds : (1 ≤ Config.resetParams.maxConn ∧ regmapWf Config.mapT) ∧
    (∃ u us, Config.rtuParams.unitAllow = some (u :: us)) ∧
    (regmapWf [lastWord] ∧ ¬ { lastWord with count := 0, init := [] }.wf) ∧
    (overlapping = [lastWord] ++ { lastWord with base := 0xFFFE, count := 2, init := [0, 0] } :: [] ∧
      { lastWord with base := 0xFFFE, count := 2, init := [0, 0] }.wf ∧ ∃ E ∈ [lastWord], ¬ E.disjoint { lastWord with base := 0xFFFE, count := 2, init := [0, 0] }) ∧
    (∀ D ∈ overlapping, D.wf) ∧ ¬ overlapping.Pairwise Entry.disjoint :=
  ⟨by decide, ⟨_, _, rfl⟩, by decide, by decide, by decide, by decide⟩

theorem witness_hardReset : (tcp [.hardReset 3]).cfg.wf ∧ (tcp [.hardReset 3]).pending = .hardReset 3 :: [] := by decide

theorem witness_decodedPdu : decode [0x06, 0x00, 0x01, 0x12, 0x34] = .instr (.writeSingleRegister 0x0001 0x1234) := by decide

/-- Ten bit units: units 7 and 8 lie on the two sides of a byte boundary, unit 10 is the first unused bit. -/
theorem witness_bitPacking : (∀ b ∈ ([1, 0, 1, 1, 0, 0, 1, 1, 1, 0] : List Word), b.toNat ≤ 1) ∧
    7 < ([1, 0, 1, 1, 0, 0, 1, 1, 1, 0] : List Word).length ∧ ([1, 0, 1, 1, 0, 0, 1, 1, 1, 0] : List Word).length ≤ 10 := by simp

theorem witness_wordPacking : 1 < ([0x1234, 0x5678] : List Word).length := by decide

theorem witness_assembled : (1 ≤ [true].length ∧ (List.replicate 1968 true).length ≤ 1968) ∧
    1 ≤ ([0x1234] : List Word).length ∧ (List.replicate 123 (0x1234 : Word)).length ≤ 123 := by
  refine ⟨⟨by decide, ?_⟩, by decide, ?_⟩ <;> rw [List.length_replicate]

theorem witness_builtFrames : ([0x07] : List Byte) ≠ [] ∧ (List.replicate 253 (0 : Byte)).length ≤ (rtu []).cfg.limits.maxPdu ∧
    (List.replicate 253 (0 : Byte)).length < 0xFFFF ∧ (∀ us, (rtu []).cfg.unitAllow = some us → (0x01 : Byte) ∈ us) := by
  refine ⟨by decide, ?_, ?_, ?_⟩
  · rw [List.length_replicate]; decide
  · rw [List.length_replicate]; decide
  · intro us h; cases h; decide

theorem witness_rtuStep :
    let s := rtu [.poll (received frameV14)]
    s.cfg.transport = .rtu ∧ s.pending = .poll (received frameV14) :: [] ∧ 4 ≤ frameV14.length ∧
    frameV14.drop (frameV14.length - 2) = u16le (crc16 (frameV14.take (frameV14.length - 2))) ∧
    frameV14.length - 3 ≤ s.cfg.limits.maxPdu ∧ (∀ us, s.cfg.unitAllow = some us → frameV14.getD 0 0 ∈ us) ∧
    decode ((frameV14.drop 1).take (frameV14.length - 3)) = .instr (.readDiscreteInputs 0x0001 7) := by
  refine ⟨rfl, rfl, by decide, by decide +kernel, by decide, ?_, by decide⟩
  intro us h; cases h; decide

/-- The link down for 4999 ms, just below the close time. -/
theorem witness_tcpStep :
    let p := { received frameV113 with linkUp := false, elapsed := 4999 }
    let s := { tcp [.poll p] with mux := { State.reset.mux with linkDownSince := some 0 } }
    s.cfg.transport = .tcp ∧ s.pending = .poll p :: [] ∧ s.now + p.elapsed - s.mux.linkDownSince.getD (s.now + p.elapsed) < s.cfg.linkCloseMs ∧
    p.sock = .connected ∧ p.rx = .bytes frameV113 ∧ 7 ≤ frameV113.length ∧ be16 frameV113 2 = 0 ∧ 2 ≤ (be16 frameV113 4).toNat ∧
    (be16 frameV113 4).toNat - 1 ≤ s.cfg.limits.maxPdu ∧ 6 + (be16 frameV113 4).toNat ≤ frameV113.length ∧
    (s.cfg.limits.tcpTrailing = .drop → frameV113.length = 6 + (be16 frameV113 4).toNat) ∧
    (∀ us, s.cfg.unitAllow = some us → frameV113.getD 6 0 ∈ us) ∧
    decode ((frameV113.drop 7).take ((be16 frameV113 4).toNat - 1)) = .instr (.writeMultipleRegisters 0x0200 2 4 [0x12, 0x34, 0x56, 0x78]) := by
  refine ⟨rfl, rfl, by decide, rfl, rfl, by decide, by decide, by decide, by decide, by decide, by decide, ?_, by decide⟩
  intro us h; cases h

/-- V98 on RTU and V110's function code 0x07 on TCP; a function code with bit 7 set. -/
theorem witness_unsupported :
    (0x07 : Byte) ∉ ([0x01, 0x02, 0x03, 0x04, 0x05, 0x06, 0x0F, 0x10] : List Byte) ∧
    (rtu []).cfg.transport = .rtu ∧ rtuDrop (rtu []).cfg frameV98 = none ∧ frameV98.getD 1 0 = 0x07 ∧
    (tcp []).cfg.transport = .tcp ∧ mbapDrop (tcp []).cfg [0, 1, 0, 0, 0, 2, 1, 0x07] = none ∧ ([0, 1, 0, 0, 0, 2, 1, 0x07] : List Byte).getD 7 0 = 0x07 ∧
    (received frameV98).linkUp = true ∧ (received frameV98).sock = .connected ∧ (0x81 : Byte).msb = true := by decide +kernel

/-- The drops of RTU at the boundary of each check: V91, V92, V101's length, V94. -/
theorem witness_rtuDrop : (rtu []).Quiet ∧ ([0x01, 0x07, 0x41] : List Byte).length < 4 ∧
    ([0x01, 0x03, 0x00, 0x00, 0x00, 0x01, 0x84, 0x0B] : List Byte).drop 6 ≠ u16le (crc16 (([0x01, 0x03, 0x00, 0x00, 0x00, 0x01, 0x84, 0x0B] : List Byte).take 6)) ∧
    (rtu []).cfg.limits.maxPdu < (List.replicate 257 (0 : Byte)).length - 3 ∧
    ∃ us, (rtu []).cfg.unitAllow = some us ∧ ([0x11, 0x03, 0x00, 0x00, 0x00, 0x01, 0x86, 0x9A] : List Byte).getD 0 0 ∉ us := by
  refine ⟨by decide, by decide, by decide +kernel, ?_, _, rfl, by decide⟩
  rw [List.length_replicate]; decide

/-- The drops of TCP at the boundary of each check: V117, V114, V115, V125, V118, V119. -/
theorem witness_tcpDrop : (tcp []).Quiet ∧ (tcp []).cfg.transport = .tcp ∧ ([0x00, 0x04, 0x00, 0x00, 0x00, 0x06] : List Byte).length < 7 ∧
    be16 [0x00, 0x02, 0x00, 0x01, 0x00, 0x06] 2 ≠ 0 ∧ (be16 [0x00, 0x03, 0x00, 0x00, 0x00, 0x01, 0x01] 4).toNat < 2 ∧
    (tcp []).cfg.limits.maxPdu < (be16 [0x00, 0x09, 0x00, 0x00, 0x00, 0xFF] 4).toNat - 1 ∧
    ([0x00, 0x05, 0x00, 0x00, 0x00, 0x06, 0x01, 0x03, 0x00, 0x00] : List Byte).length < 6 + (be16 [0x00, 0x05, 0x00, 0x00, 0x00, 0x06] 4).toNat ∧
    (6 + (be16 [0x00, 0x06, 0x00, 0x00, 0x00, 0x06] 4).toNat < ([0x00, 0x06, 0x00, 0x00, 0x00, 0x06, 0x01, 0x03, 0x00, 0x01, 0x00, 0x01, 0x00] : List Byte).length ∧
      (tcp []).cfg.limits.tcpTrailing = .drop) := by decide

/-- The received bytes of V121, to unit 2. -/
def frameV121 : List Byte := [0x00, 0x07, 0x00, 0x00, 0x00, 0x06, 0x02, 0x03, 0x00, 0x01, 0x00, 0x01]

/-- The state of V121: TCP with a unit filter. -/
def filtered : State := { tcp [.poll (received frameV121)] with cfg := { Config.resetCfg with unitAllow := some [0x01] } }

/-- V121: with TCP and a unit filter, a frame to another unit, and every other premise. -/
theorem witness_tcpForeignUnit : filtered.Quiet ∧ filtered.pending = .poll (received frameV121) :: [] ∧ filtered.cfg.transport = .tcp ∧
    (received frameV121).linkUp = true ∧ (received frameV121).sock = .connected ∧ (received frameV121).rx = .bytes frameV121 ∧
    ∃ us, filtered.cfg.unitAllow = some us ∧ frameV121.getD 6 0 ∉ us :=
  ⟨by decide, rfl, rfl, rfl, rfl, rfl, _, rfl, by decide⟩

/-- V27: an RQ of four bytes. -/
def frameV27 : List Byte := [0x01, 0x01, 0x01, 0x00, 0x00, 0x49, 0xFC]

/-- V28: an RQ of six bytes. -/
def frameV28 : List Byte := [0x01, 0x03, 0x02, 0x00, 0x00, 0x02, 0x00, 0x73, 0x53]

/-- A WM of five bytes, whose byte count is missing, in a TCP frame. -/
def frameShortWM : List Byte := [0x00, 0x08, 0x00, 0x00, 0x00, 0x06, 0x01, 0x10, 0x02, 0x00, 0x00, 0x02]

/-- Accepted RTU frames with a PDU one byte too short and one byte too long. -/
theorem witness_wrongLength_rtu : (rtu []).cfg.transport = .rtu ∧
    (rtuDrop (rtu []).cfg frameV27 = none ∧ frameV27.getD 1 0 = 0x01 ∧ wrongLength 0x01 (frameV27.length - 3)) ∧
    (rtuDrop (rtu []).cfg frameV28 = none ∧ frameV28.getD 1 0 = 0x03 ∧ wrongLength 0x03 (frameV28.length - 3)) := by decide +kernel

/-- An accepted TCP frame with a write PDU one byte too short, and the lengths that are right for their formats. -/
theorem witness_wrongLength_tcp : (tcp []).cfg.transport = .tcp ∧ (received frameShortWM).linkUp = true ∧ (received frameShortWM).sock = .connected ∧
    mbapDrop (tcp []).cfg frameShortWM = none ∧ frameShortWM.getD 7 0 = 0x10 ∧ wrongLength 0x10 ((be16 frameShortWM 4).toNat - 1) ∧
    ¬ wrongLength 0x06 5 ∧ ¬ wrongLength 0x0F 6 ∧ ¬ wrongLength 0x07 4 := by decide +kernel

/-- A poll that answers a request and one that replaces a socket. -/
theorem witness_poll :
    ((tcp [.poll (received frameV113)]).Quiet ∧ ∃ t, step (tcp [.poll (received frameV113)]) = .next t) ∧
    ∃ t, step (tcp [.poll { PollInput.quiet with sock := .notConnectedClosed }]) = .next t :=
  ⟨⟨by decide, next_of_isSome (by decide +kernel)⟩, next_of_isSome (by decide +kernel)⟩

theorem witness_nothingStops : (tcp [.poll (received frameV113)]).cfg.wf ∧ (tcp [.poll (received frameV113)]).cfg.limits.subrangeRead = .slice ∧
    (tcp [.poll (received frameV113)]).NextAnswers := by
  refine ⟨by decide, rfl, ?_⟩
  intro p rest h
  cases h
  decide

/-- A state a run reaches after a client has connected, and a hard reset still to come. -/
theorem witness_invariant :
    let s := { tcp [.poll (received frameV113), .hardReset 1] with
      now := 5, mux := { State.reset.mux with cursor := 1, slots := [{ live := .connected, gen := 0, lastActivity := 5 }, { live := .closed, gen := 2, lastActivity := 0 }], linkDownSince := some 5 } }
    s.Inv ∧ ∃ t, step s = .next t := ⟨by decide, next_of_isSome (by decide +kernel)⟩

theorem witness_tcpReply : (tcp [.poll (received frameV111)]).Quiet ∧ ∃ t, step (tcp [.poll (received frameV111)]) = .next t ∧
    .send (.slot 0) [0xAB, 0xCD, 0x00, 0x00, 0x00, 0x04, 0x11, 0x02, 0x01, 0x83] true ∈ t.trace.drop (tcp []).trace.length := by
  have h : (nextOf (step (tcp [.poll (received frameV111)]))).any (fun t =>
      decide (Action.send (.slot 0) [0xAB, 0xCD, 0x00, 0x00, 0x00, 0x04, 0x11, 0x02, 0x01, 0x83] true ∈ t.trace.drop (tcp []).trace.length)) = true := by
    decide +kernel
  refine ⟨by decide, ?_⟩
  cases hs : step (tcp [.poll (received frameV111)]) with
  | next t => rw [hs] at h; exact ⟨t, rfl, by simpa [nextOf] using h⟩
  | fault f => rw [hs] at h; simp [nextOf] at h
  | refused r => rw [hs] at h; simp [nextOf] at h

theorem witness_rtuReply : (rtu [.poll (received frameV14)]).Quiet ∧ ∃ t, step (rtu [.poll (received frameV14)]) = .next t ∧
    .send .bus [0x01, 0x02, 0x01, 0x41, 0x61, 0xB8] true ∈ t.trace.drop (rtu []).trace.length := by
  have h : (nextOf (step (rtu [.poll (received frameV14)]))).any (fun t =>
      decide (Action.send .bus [0x01, 0x02, 0x01, 0x41, 0x61, 0xB8] true ∈ t.trace.drop (rtu []).trace.length)) = true := by
    decide +kernel
  refine ⟨by decide, ?_⟩
  cases hs : step (rtu [.poll (received frameV14)]) with
  | next t => rw [hs] at h; exact ⟨t, rfl, by simpa [nextOf] using h⟩
  | fault f => rw [hs] at h; simp [nextOf] at h
  | refused r => rw [hs] at h; simp [nextOf] at h

/-- Two polls of a pool of two: the cursor wraps. -/
theorem witness_cursor :
    (tcp [.poll PollInput.quiet, .poll PollInput.quiet]).Inv ∧ 2 ≤ (tcp [.poll PollInput.quiet, .poll PollInput.quiet]).pending.length ∧
    (∀ ev ∈ (tcp [.poll PollInput.quiet, .poll PollInput.quiet]).pending.take 2, ∃ p, ev = .poll p) ∧
    ∃ t, Sys2Proof.core.run 2 (tcp [.poll PollInput.quiet, .poll PollInput.quiet]) = .next t :=
  ⟨by decide, by decide, by simp [tcp], next_of_ran (by decide +kernel)⟩

/-- The link down for exactly 5000 ms; slot 1 is not the inspected one. -/
theorem witness_linkDown :
    let p := { PollInput.quiet with linkUp := false, elapsed := 5000 }
    let s := { tcp [.poll p] with mux := { State.reset.mux with linkDownSince := some 0 } }
    s.Quiet ∧ s.mux.linkDownSince = some 0 ∧ s.cfg.linkCloseMs ≤ s.now + p.elapsed - 0 ∧ 1 ≠ s.mux.cursor ∧ ∃ t, step s = .next t :=
  ⟨by decide, rfl, by decide, by decide, next_of_isSome (by decide +kernel)⟩

/-- The reset state, the link first seen down at time 0, and one poll 4999 ms later that still sees it down. -/
def notConnected (sock : SockStatus) : State :=
  { tcp [.poll { PollInput.quiet with sock := sock, linkUp := false, elapsed := 4999 }] with
    mux := { State.reset.mux with linkDownSince := some 0 } }

/-- A socket confirmed closed: with the link up, and with the link down for just less than the close time. -/
theorem witness_confirmedClosed :
    (let p := { PollInput.quiet with sock := .notConnectedClosed };
      (tcp [.poll p]).cfg.transport = .tcp ∧ (tcp [.poll p]).Quiet ∧ (tcp [.poll p]).pending = .poll p :: [] ∧ p.linkUp = true ∧ p.sock = .notConnectedClosed) ∧
    (let p := { PollInput.quiet with sock := .notConnectedClosed, linkUp := false, elapsed := 4999 };
      let s := notConnected .notConnectedClosed;
      s.cfg.transport = .tcp ∧ s.Quiet ∧ s.pending = .poll p :: [] ∧
      s.now + p.elapsed - s.mux.linkDownSince.getD (s.now + p.elapsed) < s.cfg.linkCloseMs ∧ p.sock = .notConnectedClosed) := by
  dsimp only
  decide

/-- A socket not yet confirmed closed: with the link up, and with the link down for just less than the close time. -/
theorem witness_notYetClosed :
    (let p := { PollInput.quiet with sock := .notConnectedOpen };
      (tcp [.poll p]).cfg.transport = .tcp ∧ (tcp [.poll p]).Quiet ∧ (tcp [.poll p]).pending = .poll p :: [] ∧ p.linkUp = true ∧ p.sock = .notConnectedOpen) ∧
    (let p := { PollInput.quiet with sock := .notConnectedOpen, linkUp := false, elapsed := 4999 };
      let s := notConnected .notConnectedOpen;
      s.cfg.transport = .tcp ∧ s.Quiet ∧ s.pending = .poll p :: [] ∧
      s.now + p.elapsed - s.mux.linkDownSince.getD (s.now + p.elapsed) < s.cfg.linkCloseMs ∧ p.sock = .notConnectedOpen) := by
  dsimp only
  decide

/-- T2 at its base and the whole of it; one unit more, and one unit before it. -/
theorem witness_resolve : 1 ≤ 10 ∧ resolve Config.mapT .coil 0x0013 10 = some (2, T 2) ∧ resolve Config.mapT .coil 0x0013 11 = none ∧
    resolve Config.mapT .coil 0x0012 2 = none := by decide

/-- The whole of T7, and a range that runs one unit past the space. -/
theorem witness_resolveUnique : regmapWf Config.mapT ∧ Config.mapT[7]? = some (T 7) ∧ (T 7).space = .holdingRegister ∧
    (T 7).base.toNat ≤ 0x0200 ∧ 0x0200 + 2 ≤ (T 7).base.toNat + (T 7).count ∧ 0x10000 < 0xFFFF + 2 := by decide

/-- A coil write: T3 is an entry of another space, which no function code writes. -/
theorem witness_ownSpace : (∃ t, exec (.writeSingleCoil 0x0300 0xFF00) (serving 0x05) = .next t) ∧
    State.reset.cfg.regmap[3]? = some (T 3) ∧ (T 3).space ≠ .coil ∧ (T 3).space = .discreteInput ∧ (T 3).hasOnRead = false :=
  ⟨next_of_isSome (by decide), by decide, by decide, by decide, by decide⟩

/-- A read and a write that complete; T6 is not the entry the read resolves to, and the read's hook refreshes nothing. -/
theorem witness_frame : (∃ t, exec (.readHoldingRegisters 0x0200 2) (serving 0x03) = .next t) ∧
    (∃ t, exec (.writeSingleCoil 0x0300 0xFF00) (serving 0x05) = .next t) ∧
    resolve (serving 0x03).cfg.regmap .holdingRegister 0x0200 2 = some (7, T 7) ∧ 6 ≠ 7 ∧ (∀ us, (serving 0x03).env.onRead ≠ .refreshed us) :=
  ⟨next_of_isSome (by decide), next_of_isSome (by decide), by decide, by decide, by intro us h; cases h⟩

/-- The four checks in their order: V24, V70, V26, V50. -/
theorem witness_checks :
    ¬ (Instr.readHoldingRegisters 0x0000 126).wf State.reset.cfg.limits ∧
    ((Instr.readHoldingRegisters 0x0000 1).wf (withMap Config.mapS).cfg.limits ∧ ∀ D ∈ Config.mapS, D.space ≠ .holdingRegister) ∧
    ((Instr.readCoils 0xFFFF 2).wf State.reset.cfg.limits ∧ (∃ D ∈ State.reset.cfg.regmap, D.space = .coil) ∧
      resolve State.reset.cfg.regmap .coil 0xFFFF 2 = none) ∧
    ((Instr.writeSingleRegister 0x0200 5).wf State.reset.cfg.limits ∧
      resolve State.reset.cfg.regmap .holdingRegister 0x0200 1 = some (7, T 7) ∧ 1 ≠ (T 7).count) := by decide

/-- A response with bit 7 of its first byte set, and one with it clear. -/
theorem witness_exception : (∃ t, exec (.readHoldingRegisters 0x0000 126) (serving 0x03) = .next t ∧ t.rsp = [0x83, 0x03]) ∧ (0x83 : Byte).msb = true ∧
    ∃ t, handle { serving 0x03 with req := { (serving 0x03).req with pdu := [0x03, 0x02, 0x00, 0x00] } } = .next t ∧ t.rsp = [0x83, 0x03] :=
  ⟨⟨_, rfl, rfl⟩, by decide, ⟨_, rfl, rfl⟩⟩

theorem witness_responseHead : let s := { serving 0x03 with req := { (serving 0x03).req with pdu := [0x03, 0x02, 0x00, 0x00, 0x02] } }
    s.req.pdu = 0x03 :: [0x02, 0x00, 0x00, 0x02] ∧ s.req.fc = 0x03 ∧ ∃ t, handle s = .next t :=
  ⟨rfl, rfl, next_of_isSome (by decide)⟩

/-- A word entry of 125 units at address 0. -/
def longEntry : Entry := { space := .holdingRegister, name := "", base := 0, count := 125, init := List.replicate 125 0, hasOnRead := false, hasOnWrite := false }

/-- A response of exactly 252 bytes. -/
theorem witness_252 : (withMap [longEntry]).cfg.limits.qmaxRdBits = 2000 ∧ (withMap [longEntry]).cfg.limits.qmaxRdRegs = 125 ∧
    (rspOf (exec (.readHoldingRegisters 0 125) (latchedOn 0x03 (withMap [longEntry])))).map List.length = some 252 := by decide +kernel

/-- The whole of T2, the last discrete input of T3, the second word of T4, whose hook answers, and the whole of T7: each read meets its quantity limit,
resolves, and reads slices. -/
theorem witness_reads :
    (1 ≤ (10 : Word).toNat ∧ (10 : Word).toNat ≤ (serving 0x01).cfg.limits.qmaxRdBits.toNat ∧
      resolve (serving 0x01).cfg.regmap .coil (0x0013 : Word).toNat (10 : Word).toNat = some (2, T 2)) ∧
    (1 ≤ (1 : Word).toNat ∧ (1 : Word).toNat ≤ (serving 0x02).cfg.limits.qmaxRdBits.toNat ∧
      resolve (serving 0x02).cfg.regmap .discreteInput (0x0007 : Word).toNat (1 : Word).toNat = some (3, T 3)) ∧
    (1 ≤ (1 : Word).toNat ∧ (1 : Word).toNat ≤ (serving 0x04).cfg.limits.qmaxRdRegs.toNat ∧
      resolve (serving 0x04).cfg.regmap .inputRegister (0x0401 : Word).toNat (1 : Word).toNat = some (4, T 4) ∧
      (T 4).hasOnRead = true ∧ (serving 0x04).env.onRead ≠ .blocks) ∧
    (1 ≤ (2 : Word).toNat ∧ (2 : Word).toNat ≤ (serving 0x03).cfg.limits.qmaxRdRegs.toNat ∧
      resolve (serving 0x03).cfg.regmap .holdingRegister (0x0200 : Word).toNat (2 : Word).toNat = some (7, T 7) ∧
      (0x0200 : Word) = (T 7).base ∧ (2 : Word).toNat = (T 7).count) ∧
    (serving 0x01).cfg.limits.subrangeRead = .slice := by decide

/-- A read of the greatest quantity, 125 words. -/
theorem witness_read_limit : (125 : Word).toNat ≤ (withMap [longEntry]).cfg.limits.qmaxRdRegs.toNat ∧
    resolve (withMap [longEntry]).cfg.regmap .holdingRegister (0 : Word).toNat (125 : Word).toNat = some (0, longEntry) := by decide +kernel

/-- T6 (length 1), T5 (length 3) and T4 (length 2), whose hook answers `unchanged`. -/
theorem witness_wholeEntry :
    (1 ≤ (T 6).count ∧ resolve State.reset.cfg.regmap .holdingRegister (T 6).base.toNat (T 6).count = some (6, T 6) ∧
      State.reset.tbl[6]? = some [0] ∧ ([0] : List Word).length = (T 6).count ∧ (T 6).hasOnRead = false) ∧
    ((T 5).count ≤ 3 ∧ resolve State.reset.cfg.regmap .inputRegister (T 5).base.toNat (T 5).count = some (5, T 5) ∧
      State.reset.tbl[5]? = some [1, 2, 3] ∧ ([1, 2, 3] : List Word).length = (T 5).count ∧ (T 5).hasOnRead = false) ∧
    (resolve State.reset.cfg.regmap .inputRegister (T 4).base.toNat (T 4).count = some (4, T 4) ∧
      State.reset.tbl[4]? = some [0, 0] ∧ ([0, 0] : List Word).length = (T 4).count ∧ (T 4).hasOnRead = true ∧ State.reset.env.onRead = .unchanged) ∧
    3 ≤ State.reset.cfg.limits.qmaxRdRegs.toNat := by decide

/-- V141: the second word of T4. -/
theorem witness_subrange :
    let s := withLimits { subrangeRead := .refuse } State.reset
    (Instr.readInputRegisters 0x0401 1).wf s.cfg.limits ∧ s.cfg.limits.subrangeRead = .refuse ∧
    resolve s.cfg.regmap .inputRegister 0x0401 1 = some (4, T 4) ∧ (0x0401 : Word) ≠ (T 4).base ∧ 1 ≠ (T 4).count := by decide

/-- T1, T6, T0 and T8: whole entries, T1 and T0 with hooks that complete, quantities and byte counts that agree. -/
theorem witness_writes :
    (resolve (serving 0x05).cfg.regmap .coil (0x0300 : Word).toNat 1 = some (1, T 1) ∧ (T 1).count = 1 ∧ (T 1).hasOnWrite = true ∧
      (serving 0x05).env.onWrite ≠ .blocks) ∧
    (resolve (serving 0x06).cfg.regmap .holdingRegister (0x0001 : Word).toNat 1 = some (6, T 6) ∧ (T 6).count = 1 ∧ (T 6).hasOnWrite = false) ∧
    (1 ≤ (4 : Word).toNat ∧ (4 : Word).toNat ≤ (serving 0x0F).cfg.limits.qmaxWrBits.toNat ∧ (1 : Byte).toNat = ceil8 (4 : Word).toNat ∧
      ([0x05] : List Byte).length = (1 : Byte).toNat ∧ resolve (serving 0x0F).cfg.regmap .coil (0x0100 : Word).toNat (4 : Word).toNat = some (0, T 0) ∧
      (T 0).count = (4 : Word).toNat ∧ (T 0).hasOnWrite = true ∧ (serving 0x0F).env.onWrite ≠ .blocks) ∧
    (1 ≤ (3 : Word).toNat ∧ (3 : Word).toNat ≤ (serving 0x10).cfg.limits.qmaxWrRegs.toNat ∧ (6 : Byte).toNat = 2 * (3 : Word).toNat ∧
      ([0xAA, 0xAA, 0xBB, 0xBB, 0xCC, 0xCC] : List Byte).length = (6 : Byte).toNat ∧
      resolve (serving 0x10).cfg.regmap .holdingRegister (0x0300 : Word).toNat (3 : Word).toNat = some (8, T 8) ∧ (T 8).count = (3 : Word).toNat ∧
      (T 8).hasOnWrite = false) := by decide

/-- A write of part of T7 and one of the whole of it. -/
theorem witness_wholeWrite :
    resolve (serving 0x10).cfg.regmap .holdingRegister 0x0201 (unitCount (.writeMultipleRegisters 0x0201 1 2 [0, 1])) = some (7, T 7) ∧
    unitCount (.writeMultipleRegisters 0x0201 1 2 [0, 1]) ≠ (T 7).count ∧
    resolve (serving 0x10).cfg.regmap .holdingRegister 0x0200 (unitCount (.writeMultipleRegisters 0x0200 2 4 [0, 1, 0, 2])) = some (7, T 7) ∧
    unitCount (.writeMultipleRegisters 0x0200 2 4 [0, 1, 0, 2]) = (T 7).count := by decide

/-- T8 and T2: written whole, then read from a state with the same table. -/
theorem witness_roundTrip :
    (Memory.wf State.reset.cfg.regmap State.reset.tbl = true ∧ State.reset.cfg.limits.qmaxWrRegs = 123 ∧ State.reset.cfg.limits.qmaxRdRegs = 125 ∧
      State.reset.cfg.limits.qmaxWrBits = 1968 ∧ State.reset.cfg.limits.qmaxRdBits = 2000) ∧
    (resolve State.reset.cfg.regmap .holdingRegister (T 8).base.toNat ([0xAAAA, 0xBBBB, 0xCCCC] : List Word).length = some (8, T 8) ∧
      (T 8).count = ([0xAAAA, 0xBBBB, 0xCCCC] : List Word).length ∧ (T 8).hasOnRead = false) ∧
    (resolve State.reset.cfg.regmap .coil (T 2).base.toNat [true, false, true, true, false, false, true, true, true, false].length = some (2, T 2) ∧
      (T 2).count = [true, false, true, true, false, false, true, true, true, false].length ∧ (T 2).hasOnRead = false) ∧
    (∃ t, exec (asmWriteMultipleRegisters (T 8).base [0xAAAA, 0xBBBB, 0xCCCC]) (serving 0x10) = .next t) ∧
    ∃ t, exec (asmWriteMultipleCoils (T 2).base [true, false, true, true, false, false, true, true, true, false]) (serving 0x0F) = .next t :=
  ⟨by decide, by decide, by decide, next_of_isSome (by decide), next_of_isSome (by decide)⟩

/-- V140's read of T4 with a hook that answers a value of T4's shape. -/
theorem witness_onRead :
    let s := { serving 0x04 with env := { PollInput.quiet with onRead := .refreshed [0x1234, 0x5678] } }
    (Instr.readInputRegisters 0x0401 1).wf s.cfg.limits ∧ resolve s.cfg.regmap .inputRegister 0x0401 1 = some (4, T 4) ∧
    4 < s.tbl.length ∧ s.cfg.limits.subrangeRead = .slice ∧ (T 4).hasOnRead = true ∧ s.env.onRead = .refreshed [0x1234, 0x5678] ∧
    ([0x1234, 0x5678] : List Word).length = (T 4).count ∧ (T 4).space.isBit = false := by decide

/-- T4's read hook and T1's write hook, neither of which ever answers. -/
theorem witness_hooks :
    let s := { serving 0x04 with env := { PollInput.quiet with onRead := .blocks, onWrite := .blocks } }
    ((Instr.readInputRegisters 0x0400 2).wf s.cfg.limits ∧ resolve s.cfg.regmap .inputRegister 0x0400 2 = some (4, T 4) ∧ (T 4).hasOnRead = true ∧
      s.env.onRead = .blocks ∧ s.cfg.limits.subrangeRead = .slice) ∧
    ((Instr.writeSingleCoil 0x0300 0).wf s.cfg.limits ∧ resolve s.cfg.regmap .coil 0x0300 1 = some (1, T 1) ∧ 1 = (T 1).count ∧
      (T 1).hasOnWrite = true ∧ s.env.onWrite = .blocks) := by decide

/-- The same request from a reset state and from one at another time, on another slot. -/
theorem witness_sameMeaning :
    let s' := { serving 0x03 with now := 9, mux := { State.reset.mux with cursor := 1, inflight := some 1 }, req := { (serving 0x03).req with tid := 7, peer := .slot 1 } }
    s'.cfg = (serving 0x03).cfg ∧ s'.tbl = (serving 0x03).tbl ∧ s'.req.fc = (serving 0x03).req.fc ∧ s'.env.onRead = (serving 0x03).env.onRead ∧
    s'.env.onWrite = (serving 0x03).env.onWrite ∧ ∃ t, exec (.readHoldingRegisters 0x0200 2) (serving 0x03) = .next t :=
  ⟨rfl, rfl, rfl, rfl, rfl, next_of_isSome (by decide)⟩

end Sys2Proof.Tests
end

section
/-! Address resolution (20_memory.md R53): `Resolve` against the addresses of the range. -/

namespace Sys2Proof.Machine

/-- R53's "covers every address of the range": on a range that is not empty, the bounds `covers` compares say it of each address. -/
theorem covers_iff_forall_address {D : Entry} {sp : Space} {addr n : Nat} (hn : 1 ≤ n) :
    covers D sp addr n = true ↔
      D.space = sp ∧ ∀ a, addr ≤ a → a < addr + n → D.base.toNat ≤ a ∧ a < D.base.toNat + D.count := by
  rw [covers_iff]
  refine and_congr_right fun _ => ⟨fun ⟨hlo, hhi⟩ a ha ha' => by omega, fun h => ?_⟩
  have hfirst := h addr le_rfl (by omega)
  have hlast := h (addr + n - 1) (by omega) (by omega)
  omega

theorem not_covers_iff_exists_address {D : Entry} {sp : Space} {addr n : Nat} (hn : 1 ≤ n) :
    covers D sp addr n = false ↔
      (D.space = sp → ∃ a, addr ≤ a ∧ a < addr + n ∧ ¬ (D.base.toNat ≤ a ∧ a < D.base.toNat + D.count)) := by
  rw [← Bool.not_eq_true, covers_iff_forall_address hn]
  simp only [not_and, not_forall, exists_prop]

theorem findEntry_not_covers_before {sp : Space} {addr n : Nat} {ds : List Entry} {e k j : Nat} {D E : Entry}
    (h : findEntry sp addr n e ds = some (k, D)) (hj : e + j < k) (hE : ds[j]? = some E) :
    covers E sp addr n = false := by
  induction ds generalizing e j with
  | nil => simp at hE
  | cons F ds ih =>
    rw [findEntry] at h
    split at h
    · obtain ⟨rfl, -⟩ : e = k ∧ F = D := by simpa using h
      omega
    · next hF =>
      cases j with
      | zero =>
        obtain rfl : F = E := by simpa using hE
        simpa using hF
      | succ j => exact ih (j := j) h (by omega) (by simpa using hE)

theorem resolve_not_covers_before {rm : List Entry} {sp : Space} {addr n e j : Nat} {D E : Entry}
    (h : resolve rm sp addr n = some (e, D)) (hj : j < e) (hE : rm[j]? = some E) :
    covers E sp addr n = false :=
  findEntry_not_covers_before h (by omega) hE

/-- Settles O33: the search stops at the first covering entry, and on a range that is not empty the bounds it compares
say that every address is covered. -/
theorem resolveGivesACoveringEntryOrNone : Obligations.ResolveGivesACoveringEntryOrNone := by
  intro rm sp addr n hn
  refine ⟨fun e D h => ?_, ?_⟩
  · obtain ⟨hget, hbounds⟩ := resolve_some h
    obtain ⟨hsp, hall⟩ := (covers_iff_forall_address hn).mp (covers_iff.mpr hbounds)
    refine ⟨hget, hsp, hall, fun j hj E hE hEsp hE' => ?_⟩
    have hno := resolve_not_covers_before h hj hE
    have hyes : covers E sp addr n = true := covers_iff.mpr ⟨hEsp, hE'⟩
    simp [hno] at hyes
  · simp only [resolve_none, not_covers_iff_exists_address hn]

end Sys2Proof.Machine
end

section
/-! Word packing (30_encoding.md R91): the two bytes of each packed word, and what unpacking reads from them. -/

namespace Sys2Proof

theorem packWords_cons (w : Word) (ws : List Word) :
    packWords (w :: ws) = w.extractLsb' 8 8 :: w.extractLsb' 0 8 :: packWords ws := rfl

/-- Word `k` of the range is at bytes `2k` and `2k + 1`, high byte first. -/
theorem packWords_getD (ws : List Word) (k : Nat) :
    (packWords ws).getD (2 * k) 0 = (ws.getD k 0).extractLsb' 8 8 ∧
      (packWords ws).getD (2 * k + 1) 0 = (ws.getD k 0).extractLsb' 0 8 := by
  induction ws generalizing k with
  | nil => simp [packWords]
  | cons w ws ih =>
    rw [packWords_cons]
    cases k with
    | zero => exact ⟨rfl, rfl⟩
    | succ k => simpa [Nat.mul_succ] using ih k

theorem be16_packWords (ws : List Word) (k : Nat) : be16 (packWords ws) (2 * k) = ws.getD k 0 := by
  obtain ⟨hhigh, hlow⟩ := packWords_getD ws k
  rw [be16, hhigh, hlow, word_bytes]

theorem be16_toNat (s : List Byte) (i : Nat) :
    (be16 s i).toNat = 256 * (s.getD i 0).toNat + (s.getD (i + 1) 0).toNat := by
  rw [be16, BitVec.toNat_append, ← Nat.shiftLeft_add_eq_or_of_lt (BitVec.isLt _), Nat.shiftLeft_eq, Nat.mul_comm]

theorem unpackWords_packWords (ws : List Word) : unpackWords (packWords ws) ws.length = ws.map BitVec.toNat := by
  refine List.ext_getElem (by simp [unpackWords]) fun k hk _ => ?_
  have hlt : k < ws.length := by simpa [unpackWords] using hk
  simp [unpackWords, be16_packWords, hlt]

theorem unpackWords_getD {q k : Nat} (data : List Byte) (hk : k < q) :
    (unpackWords data q).getD k 0 = (be16 data (2 * k)).toNat := by
  simp [unpackWords, hk]

/-- Settles O11: each word is its two bytes in order, so reading the word at byte 2k undoes the packing. -/
theorem wordPackingIsBigEndian : Obligations.WordPackingIsBigEndian := by
  refine ⟨fun ws => ⟨packWords_length ws, fun k _ => packWords_getD ws k, unpackWords_packWords ws⟩,
    fun data q => ⟨Machine.unpackWords_length data q, fun k hk => ?_⟩⟩
  rw [unpackWords_getD data hk, be16_toNat]

end Sys2Proof
end

section
/-! The first byte of a response (30_encoding.md R82). -/

namespace Sys2Proof.Machine

theorem decodeFixed_fc {mk : Word → Word → Instr} {pdu : List Byte} {i : Instr} {fc : Byte}
    (h : decodeFixed mk pdu = .instr i) (hmk : ∀ a v, (mk a v).fc = fc) : i.fc = fc := by
  obtain ⟨-, _, _, _, _, -, rfl⟩ := decodeFixed_instr h
  exact hmk _ _

theorem decodeMultiple_fc {mk : Word → Word → Byte → List Byte → Instr} {pdu : List Byte} {i : Instr} {fc : Byte}
    (h : decodeMultiple mk pdu = .instr i) (hmk : ∀ a q bc data, (mk a q bc data).fc = fc) : i.fc = fc := by
  obtain ⟨-, _, _, _, _, _, _, -, rfl⟩ := decodeMultiple_instr h
  exact hmk _ _ _ _

/-- The decoder reads the instruction that the first byte of the PDU names (30_encoding.md R83). -/
theorem decode_cons_fc {fc : Byte} {rest : List Byte} {i : Instr} (h : decode (fc :: rest) = .instr i) : i.fc = fc := by
  rw [decode_cons] at h
  split_ifs at h with h1 h2 h3 h4 h5 h6 hF h10
  · subst h1; exact decodeFixed_fc h fun _ _ => rfl
  · subst h2; exact decodeFixed_fc h fun _ _ => rfl
  · subst h3; exact decodeFixed_fc h fun _ _ => rfl
  · subst h4; exact decodeFixed_fc h fun _ _ => rfl
  · subst h5; exact decodeFixed_fc h fun _ _ => rfl
  · subst h6; exact decodeFixed_fc h fun _ _ => rfl
  · subst hF; exact decodeMultiple_fc h fun _ _ _ _ => rfl
  · subst h10; exact decodeMultiple_fc h fun _ _ _ _ => rfl

/-- The response of an executed request (30_encoding.md R82). -/
theorem exec_rsp {i : Instr} {s t : State} (he : exec i s = .next t) :
    (∃ us, t.rsp = normalPdu i us) ∨ ∃ c, t.rsp = exceptionPdu s.req.fc c := by
  have hend := exec_ending i s
  rw [he] at hend
  cases hend with
  | raised c u hu =>
    obtain ⟨hrsp, -, -⟩ := raised_takeException (c := c) hu
    exact .inr ⟨c, hrsp⟩
  | read => exact .inl ⟨_, rfl⟩
  | write => exact .inl ⟨[], rfl⟩

/-- Settles O40: a response is either the normal PDU of the decoded instruction, whose function code is the request's,
or an exception PDU. -/
theorem responseBeginsWithTheFunctionCode : Obligations.ResponseBeginsWithTheFunctionCode := by
  intro s t fc rest hpdu hfc h
  have exception {c : ExceptionCode} (hrsp : t.rsp = exceptionPdu s.req.fc c) :
      (fc ||| 0x80).msb = true ∧ ∃ c : ExceptionCode, t.rsp = [fc ||| 0x80, c.toByte] :=
    ⟨exception_fc_msb fc, c, by rw [hrsp, exceptionPdu, hfc]⟩
  rcases handle_cases s with ⟨c, -, hraise⟩ | ⟨i, hdecode, hexec⟩
  · obtain rfl : takeException c s = t := by simpa [hraise] using h
    exact .inr (exception rfl)
  · rw [hpdu] at hdecode
    rcases exec_rsp (hexec ▸ h) with ⟨us, hrsp⟩ | ⟨c, hrsp⟩
    · obtain ⟨r, hhead⟩ := normalPdu_head i us
      rw [← decode_cons_fc hdecode]
      exact .inl ⟨i.fc_msb, r, hrsp.trans hhead⟩
    · exact .inr (exception hrsp)

end Sys2Proof.Machine
end

section
/-! The slots a TCP poll leaves alone (40_framing.md R126). -/

namespace Sys2Proof.Machine

theorem frontEnd_eq_pollTCP {s : State} (ht : s.cfg.transport = .tcp) : frontEnd s = pollTCP s := by
  simp [frontEnd, ht]

/-- The TCP front end puts nothing in flight but the inspected slot (40_framing.md R116, R120). -/
theorem frontEnd_tcp_inflight {s : State} (ht : s.cfg.transport = .tcp) :
    (frontEnd s).mux.inflight = s.mux.inflight ∨ (frontEnd s).mux.inflight = some s.mux.cursor := by
  rw [frontEnd_eq_pollTCP ht]
  rcases pollTCP_cases s with ⟨-, h⟩ | ⟨-, ⟨-, h⟩ | ⟨-, h⟩ | ⟨-, -, h⟩ | ⟨f, -, -, -, h⟩⟩ <;> rw [h]
  · exact .inl rfl
  · exact .inl rfl
  · exact .inl rfl
  · exact .inl rfl
  · exact .inr rfl

/-- The TCP front end changes no slot but the inspected one (40_framing.md R121 to R124, R126). -/
theorem frontEnd_tcp_slot_of_ne {s : State} {j : Nat} (ht : s.cfg.transport = .tcp) (hj : j ≠ s.mux.cursor) :
    (frontEnd s).mux.slots[j]? = s.mux.slots[j]? := by
  obtain ⟨-, -, g, hslots, -⟩ := frontEnd_tcp ht
  rw [hslots, List.getElem?_modify_ne g _ hj.symm]

/-- A transmit changes no slot but the one in flight (40_framing.md R117). -/
theorem transmit_slot_of_ne {s : State} {j : Nat} (hj : s.mux.inflight ≠ some j) :
    (transmit s).mux.slots[j]? = s.mux.slots[j]? := by
  rcases transmit_slots s with h | ⟨k, hk, h⟩
  · rw [h]
  · have hkj : k ≠ j := by
      rintro rfl
      exact hj hk
    rw [h, List.getElem?_modify_ne _ _ hkj]

/-- A request, from its latch to the return to `Idle`, changes no slot but the one in flight (40_framing.md R117; 41_dispatch.md R134). -/
theorem finishHandled_slot_of_ne {s t : State} {j : Nat} (h : finishHandled (handle s) = .next t)
    (hj : s.mux.inflight ≠ some j) : t.mux.slots[j]? = s.mux.slots[j]? := by
  obtain ⟨u, hu, rfl⟩ := finishHandled_next h
  obtain ⟨-, hmux, -⟩ := handle_frame hu
  rw [← hmux] at hj ⊢
  exact transmit_slot_of_ne hj

/-- A whole TCP poll with nothing in flight changes no slot but the inspected one (40_framing.md R126). -/
theorem poll_tcp_slot_of_ne {s t : State} {j : Nat} (ht : s.cfg.transport = .tcp) (hinflight : s.mux.inflight = none)
    (h : poll s = .next t) (hj : j ≠ s.mux.cursor) : t.mux.slots[j]? = s.mux.slots[j]? := by
  have hfront : (frontEnd (enter .awaitRequest s)).mux.slots[j]? = s.mux.slots[j]? :=
    frontEnd_tcp_slot_of_ne (s := enter .awaitRequest s) ht hj
  rcases poll_cases s with ⟨-, hp⟩ | ⟨-, hp⟩ <;> rw [hp] at h
  · cases h
    exact hfront
  · refine (finishHandled_slot_of_ne h ?_).trans hfront
    rcases frontEnd_tcp_inflight (s := enter .awaitRequest s) ht with hi | hi
    · simp [hi, hinflight]
    · simpa [hi] using hj.symm

/-- Settles O29: the front end changes the inspected slot alone, and the reply goes to the slot in flight, which is the
inspected one. -/
theorem pollWritesOnlyTheInspectedSlot : Obligations.PollWritesOnlyTheInspectedSlot := by
  rintro s t p rest ht ⟨-, -, -, hinflight⟩ hp h j hj
  rw [step_poll hp] at h
  exact poll_tcp_slot_of_ne (s := takeInputs p { s with pending := rest }) ht hinflight h hj

end Sys2Proof.Machine
end

section
/-! A socket not connected and not yet confirmed closed (40_framing.md R120, R123). -/

namespace Sys2Proof.Machine

/-- With TCP and a link not expired, the front end marks a socket not yet confirmed closed (40_framing.md R123). -/
theorem frontEnd_notConnectedOpen {s : State} (ht : s.cfg.transport = .tcp)
    (hl : s.env.linkUp = true ∨ s.now - s.mux.linkDownSince.getD s.now < s.cfg.linkCloseMs)
    (hs : s.env.sock = .notConnectedOpen) : frontEnd s = markClosing s.mux.cursor (afterLink s) := by
  have hx := linkExpired_afterLink_eq_false hl
  rw [frontEnd_eq_pollTCP ht]
  simpa [hx, hs] using pollTCP_cases s

/-- A poll whose front end reports no request goes back to `Idle` (41_dispatch.md R130, R134). -/
theorem poll_noRequest {s : State} (h : (frontEnd (enter .awaitRequest s)).req.valid = false) :
    poll s = .next (enter .idle (frontEnd (enter .awaitRequest s))) := by
  simp [poll, h]

/-- Settles O32: the front end only marks the slot, so no request is latched and the poll goes back to `Idle`. -/
theorem notYetClosedSocketReportsNoRequest : Obligations.NotYetClosedSocketReportsNoRequest := by
  rintro s p rest ht ⟨hidle, hvalid, -, -⟩ hp hl hs
  have hfront := frontEnd_notConnectedOpen
    (s := enter .awaitRequest (takeInputs p { s with pending := rest })) ht hl hs
  have hreq : (frontEnd (enter .awaitRequest (takeInputs p { s with pending := rest }))).req.valid = false := by
    rw [hfront]
    exact hvalid
  rw [step_poll hp, poll_noRequest hreq, hfront, ← linkDownAfter_eq, ← hidle]
  rfl

end Sys2Proof.Machine
end

section
/-! Taking an exception and the return to `Idle` (60_exceptions.md R162, R173). -/

namespace Sys2Proof.Machine

/-! ### The exception codes (60_exceptions.md R161, R162) -/

/-- The bytes of the exception codes (60_exceptions.md R161). -/
theorem toByte_cases (c : ExceptionCode) : c.toByte = 0x01 ∨ c.toByte = 0x02 ∨ c.toByte = 0x03 := by
  cases c with
  | illegalFunction => exact .inl rfl
  | illegalDataAddress => exact .inr (.inl rfl)
  | illegalDataValue => exact .inr (.inr rfl)

/-- Bit 7 of the first byte of a normal response is clear (30_encoding.md R82). -/
theorem normalPdu_msb {i : Instr} {us : List Word} {b : Byte} {r : List Byte} (h : normalPdu i us = b :: r) :
    b.msb = false := by
  obtain ⟨_, hhead⟩ := normalPdu_head i us
  obtain ⟨rfl, -⟩ := List.cons.inj (hhead.symm.trans h)
  exact i.fc_msb

/-- The response to a latched request, one that the decoder rejects included (30_encoding.md R82; 41_dispatch.md R134). -/
theorem handle_rsp {s t : State} (h : handle s = .next t) :
    (∃ i us, t.rsp = normalPdu i us) ∨ ∃ c, t.rsp = exceptionPdu s.req.fc c := by
  rcases handle_cases s with ⟨c, -, hraise⟩ | ⟨i, -, hexec⟩
  · obtain rfl : takeException c s = t := by simpa [hraise] using h
    exact .inr ⟨c, takeException_rsp s c⟩
  · exact (exec_rsp (hexec ▸ h)).imp_left fun ⟨us, hrsp⟩ => ⟨i, us, hrsp⟩

/-- Settles O39: bit 7 rules out a normal response, and an exception response ends in the byte of its code. -/
theorem exceptionCodesAreOneTwoAndThree : Obligations.ExceptionCodesAreOneTwoAndThree := by
  intro s t b r h hrsp hb
  rcases handle_rsp h with ⟨i, us, hnormal⟩ | ⟨c, hexception⟩
  · simp [normalPdu_msb (hnormal.symm.trans hrsp)] at hb
  · obtain ⟨-, rfl⟩ := List.cons.inj (hexception.symm.trans hrsp)
    simpa using toByte_cases c

/-! ### The return to `Idle` (60_exceptions.md R173; 41_dispatch.md R130) -/

/-- A front end that reports no request puts nothing in flight: only the latch of an accepted TCP frame does
(40_framing.md R116). -/
theorem frontEnd_inflight_of_noRequest {s : State} (h : (frontEnd s).req.valid = false) :
    (frontEnd s).mux.inflight = s.mux.inflight := by
  cases ht : s.cfg.transport with
  | rtu => rw [frontEnd_rtu ht]
  | tcp =>
    rw [frontEnd_eq_pollTCP ht] at h ⊢
    rcases pollTCP_cases s with ⟨-, hp⟩ | ⟨-, ⟨-, hp⟩ | ⟨-, hp⟩ | ⟨-, -, hp⟩ | ⟨f, -, -, -, hp⟩⟩ <;> rw [hp] at h ⊢
    · rfl
    · rfl
    · rfl
    · rfl
    · cases h

/-- After the response the dispatcher is quiet, whatever the state it answered from (60_exceptions.md R173). -/
theorem finishPoll_quiet (s : State) : (finishPoll s).Quiet := ⟨rfl, rfl, rfl, rfl⟩

/-- A poll that starts with no response and nothing in flight ends quiet, with a request or without one
(41_dispatch.md R130). -/
theorem poll_quiet {s t : State} (hrsp : s.rsp = []) (hinflight : s.mux.inflight = none) (h : poll s = .next t) :
    t.Quiet := by
  rcases poll_cases s with ⟨hnone, hp⟩ | ⟨-, hp⟩ <;> rw [hp] at h
  · cases h
    obtain ⟨-, -, -, hfront, -⟩ := frontEnd_frame (enter .awaitRequest s)
    exact ⟨rfl, hnone, hfront.trans hrsp, (frontEnd_inflight_of_noRequest hnone).trans hinflight⟩
  · obtain ⟨u, -, rfl⟩ := finishHandled_next h
    exact finishPoll_quiet u

/-- Settles O21: the return clears what a request leaves, and a poll without one has latched and put in flight
nothing. -/
theorem everyPollReturnsToIdle : Obligations.EveryPollReturnsToIdle := by
  rintro s t p rest ⟨-, -, hrsp, hinflight⟩ hp h
  rw [step_poll hp] at h
  exact poll_quiet (s := takeInputs p { s with pending := rest }) hrsp hinflight h

end Sys2Proof.Machine
end

section
/-! Boot and hard reset (70_reset_and_hazards.md R190, R191; 60_exceptions.md R163): the configurations they start from, and the invariant they establish. -/

namespace Sys2Proof.Machine

/-- The parameters that make an engine (10_state.md R24, R25). -/
theorem paramsOk_iff {c : Cfg} :
    paramsOk c = true ↔ (c.transport = .tcp → 1 ≤ c.maxConn) ∧ (c.transport = .rtu → ∃ u us, c.unitAllow = some (u :: us)) := by
  unfold paramsOk
  cases c.transport with
  | tcp => simp
  | rtu =>
    match c.unitAllow with
    | none => simp
    | some [] => simp
    | some (u :: us) => simp

theorem boot_of_registerRows_none {p : Params} {rm : List Entry} {now : Nat}
    (hp : paramsOk (Cfg.ofParams p rm) = true) (h : registerRows [] rm = none) :
    boot p rm now = .next (State.ofCfg (Cfg.ofParams p rm) now) := by
  simp [boot, bootFrom, hp, show registerRows [] (Cfg.ofParams p rm).regmap = none from h]

theorem boot_of_registerRows_some {p : Params} {rm : List Entry} {now : Nat} {f : Fault}
    (hp : paramsOk (Cfg.ofParams p rm) = true) (h : registerRows [] rm = some f) : boot p rm now = .fault f := by
  simp [boot, bootFrom, hp, show registerRows [] (Cfg.ofParams p rm).regmap = some f from h]

/-- A map registers, from nothing, exactly when it is well-formed (10_state.md R29). -/
theorem registerRows_nil_none {rm : List Entry} : registerRows [] rm = none ↔ regmapWf rm := by
  simp [registerRows_none, regmapWf]

/-- An unsound row fails, whatever is registered before it and to come after it. -/
theorem registerRows_unsound {registered todo : List Entry} {D : Entry} (h : ¬ D.wf) :
    registerRows registered (D :: todo) = some .configError := by
  have hD : entryOk D = false := by
    rw [← entryOk_iff] at h
    simpa using h
  simp [registerRows, hD]

/-- A sound row that overlaps a registered one fails. -/
theorem registerRows_overlap {registered todo : List Entry} {D : Entry} (h : D.wf)
    (hE : ∃ E ∈ registered, ¬ E.disjoint D) : registerRows registered (D :: todo) = some .addressConflict := by
  obtain ⟨E, hmem, hdis⟩ := hE
  have hany : registered.any (overlaps D) = true := by
    refine List.any_eq_true.mpr ⟨E, hmem, ?_⟩
    rw [← overlaps_eq_false] at hdis
    simpa using hdis
  simp only [registerRows, (entryOk_iff D).mpr h, hany]
  simp

/-- Settles O2: `registerRows` succeeds on well-formed maps alone, and rows that register leave the decision to the next one. -/
theorem bootSucceedsExactlyOnWellFormedMaps : Obligations.BootSucceedsExactlyOnWellFormedMaps := by
  intro p rm now htcp hrtu
  have hp : paramsOk (Cfg.ofParams p rm) = true := paramsOk_iff.mpr ⟨htcp, hrtu⟩
  refine ⟨⟨?_, fun hwf => ⟨_, boot_of_registerRows_none hp (registerRows_nil_none.mpr hwf)⟩⟩, ?_, ?_⟩
  · rintro ⟨s, hs⟩
    obtain ⟨-, hwf, -⟩ := bootFrom_next hs
    exact hwf
  · rintro before after D rfl hbefore
    have hrows : registerRows [] (before ++ D :: after) = registerRows before (D :: after) := by
      simpa using registerRows_append (after := D :: after) (registerRows_nil_none.mpr hbefore)
    refine ⟨fun hD => boot_of_registerRows_some hp ?_, fun hD hE => boot_of_registerRows_some hp ?_⟩
    · rw [hrows, registerRows_unsound hD]
    · rw [hrows, registerRows_overlap hD hE]
  · intro hsound hnot
    refine boot_of_registerRows_some hp ((registerRows_sound hsound).resolve_left fun hnone => hnot ?_)
    obtain ⟨-, hdisjoint⟩ := registerRows_nil_none.mp hnone
    exact hdisjoint

/-! ### The state a boot leaves -/

theorem boot_next {p : Params} {rm : List Entry} {now : Nat} {s : State} (h : boot p rm now = .next s) :
    s = State.ofCfg (Cfg.ofParams p rm) now := by
  obtain ⟨-, -, hs⟩ := bootFrom_next h
  exact hs

/-- Settles O1: a boot that succeeds leaves `State.ofCfg`, whose pool is `max_conn` fresh slots with TCP. -/
theorem bootLeavesResetValues : Obligations.BootLeavesResetValues := by
  intro p rm now s h
  obtain rfl := boot_next h
  refine ⟨rfl, rfl, rfl, rfl, rfl, fun ht => ?_⟩
  have hslots : (State.ofCfg (Cfg.ofParams p rm) now).mux.slots = List.replicate p.maxConn (Slot.fresh now) := by
    simp [State.ofCfg, Mux.ofCfg, Cfg.ofParams, ht]
  refine ⟨rfl, by rw [hslots, List.length_replicate], fun c hc => ?_, rfl, rfl⟩
  rw [hslots] at hc
  obtain rfl := List.eq_of_mem_replicate hc
  exact ⟨rfl, rfl, rfl⟩

/-- The pool after reset has the shape its transport gives it (10_state.md R40, R43). -/
theorem ofCfg_poolWf {c : Cfg} (h : c.wf) (now : Nat) : (State.ofCfg c now).PoolWf := by
  obtain ⟨hmax, -, -, -⟩ := h
  simp only [State.PoolWf, State.ofCfg, Mux.ofCfg]
  cases ht : c.transport with
  | tcp =>
    refine ⟨fun _ => ⟨by simp, hmax ht⟩, nofun, nofun, fun d hd => ?_⟩
    obtain rfl := List.eq_of_mem_replicate hd
    exact le_rfl
  | rtu => exact ⟨nofun, fun _ => by simp, nofun, nofun⟩

/-- A well-formed configuration resets to a state that meets the invariant. -/
theorem ofCfg_inv {c : Cfg} (h : c.wf) (now : Nat) : (State.ofCfg c now).Inv := by
  have hmap : ∀ D ∈ c.regmap, D.wf := by
    obtain ⟨-, -, -, hmap, -⟩ := h
    exact hmap
  exact ⟨h, Memory.wf_ofMap hmap, ⟨rfl, rfl, rfl, rfl⟩, ofCfg_poolWf h now⟩

/-- Settles O3: the configuration of the reset state is well-formed. -/
theorem resetMeetsInvariant : Obligations.ResetMeetsInvariant :=
  ofCfg_inv (c := Config.resetCfg) (by decide) 0

/-- The configuration of a boot that succeeds is well-formed: its parameters and its map pass the checks (70_reset_and_hazards.md R191). -/
theorem ofParams_wf {p : Params} {rm : List Entry} {now : Nat} {s : State} (h : boot p rm now = .next s) :
    (Cfg.ofParams p rm).wf := by
  obtain ⟨hp, hmap, -⟩ := bootFrom_next h
  obtain ⟨htcp, hrtu⟩ := paramsOk_iff.mp hp
  refine ⟨htcp, fun ht => ?_, rfl, hmap⟩
  obtain ⟨u, us, hu⟩ := hrtu ht
  simp [hu]

/-- Settles O4: the boot's checks are the invariant's conditions on the configuration, and the reset values meet the rest. -/
theorem bootMeetsInvariant : Obligations.BootMeetsInvariant := by
  intro p rm now s h
  rw [boot_next h]
  exact ofCfg_inv (ofParams_wf h) now

/-- A hard reset of a well-formed configuration boots again (70_reset_and_hazards.md R190). -/
theorem hardReset_of_wf {s : State} (h : s.cfg.wf) (elapsed : Nat) :
    hardReset elapsed s =
      .next { State.ofCfg s.cfg (s.now + elapsed) with pending := s.pending, trace := s.trace } := by
  simp only [hardReset, bootFrom_of_wf h]

/-- Settles O5: a hard reset is the boot of the same configuration, with the tape and the observation kept. -/
theorem hardResetReinitialisesTable : Obligations.HardResetReinitialisesTable := by
  intro s elapsed rest hwf hp
  rw [step_hardReset hp, hardReset_of_wf (s := { s with pending := rest }) hwf]
  exact ⟨_, rfl, rfl, rfl⟩

/-- A hard reset that succeeds has kept the configuration. -/
theorem hardReset_cfg {s t : State} {elapsed : Nat} (h : hardReset elapsed s = .next t) : t.cfg = s.cfg := by
  unfold hardReset at h
  cases hb : bootFrom s.cfg (s.now + elapsed) with
  | next u =>
    obtain ⟨-, -, rfl⟩ := bootFrom_next hb
    rw [hb] at h
    cases h
    rfl
  | fault f => simp [hb] at h
  | refused r => simp [hb] at h

end Sys2Proof.Machine
end

section
/-! What every step keeps: the configuration, and the invariant (10_state.md R18 to R40; 41_dispatch.md R130; 60_exceptions.md R179). -/

namespace Sys2Proof.Machine

/-! ### The configuration -/

theorem finishPoll_cfg (s : State) : (finishPoll s).cfg = s.cfg := by
  obtain ⟨hcfg, -⟩ := transmit_frame s
  exact hcfg

/-- A poll touches the configuration in none of its parts (10_state.md R23 to R28). -/
theorem poll_cfg {s t : State} (h : poll s = .next t) : t.cfg = s.cfg := by
  obtain ⟨hfront, -⟩ := frontEnd_frame (enter .awaitRequest s)
  rcases poll_cases s with ⟨-, hp⟩ | ⟨-, hp⟩ <;> rw [hp] at h
  · cases h
    exact hfront
  · obtain ⟨u, hu, rfl⟩ := finishHandled_next h
    obtain ⟨hcfg, -⟩ := handle_frame hu
    rw [finishPoll_cfg, hcfg, hfront, enter_cfg]

/-- Settles O25: neither a poll nor a hard reset changes the configuration. -/
theorem configurationIsReadOnly : Obligations.ConfigurationIsReadOnly := by
  intro s t h
  rcases step_cases s with ⟨-, hs⟩ | ⟨p, rest, -, hs⟩ | ⟨e, rest, -, hs⟩ <;> rw [hs] at h
  · cases h
    rfl
  · exact poll_cfg (s := takeInputs p { s with pending := rest }) h
  · exact hardReset_cfg (s := { s with pending := rest }) h

/-! ### The table -/

theorem finishPoll_tbl (s : State) : (finishPoll s).tbl = s.tbl := by
  obtain ⟨-, htbl, -⟩ := transmit_frame s
  exact htbl

/-- A latched request keeps the table's form, one that the decoder rejects included. -/
theorem handle_keeps_wf {s t : State} (h : Memory.wf s.cfg.regmap s.tbl = true) (hh : handle s = .next t) :
    Memory.wf s.cfg.regmap t.tbl = true := by
  rcases handle_cases s with ⟨c, -, hraise⟩ | ⟨i, -, hexec⟩
  · obtain rfl : takeException c s = t := by simpa [hraise] using hh
    exact h
  · obtain ⟨hcfg, hwf⟩ := exec_keeps_wf h (hexec ▸ hh)
    rwa [hcfg] at hwf

/-- A poll keeps the table's form. -/
theorem poll_keeps_wf {s t : State} (h : Memory.wf s.cfg.regmap s.tbl = true) (hp : poll s = .next t) :
    Memory.wf s.cfg.regmap t.tbl = true := by
  obtain ⟨hcfg, htbl, -⟩ := frontEnd_frame (enter .awaitRequest s)
  have hfront : Memory.wf (frontEnd (enter .awaitRequest s)).cfg.regmap (frontEnd (enter .awaitRequest s)).tbl = true := by
    rw [hcfg, htbl]
    exact h
  rcases poll_cases s with ⟨-, hs⟩ | ⟨-, hs⟩ <;> rw [hs] at hp
  · cases hp
    rwa [hcfg] at hfront
  · obtain ⟨u, hu, rfl⟩ := finishHandled_next hp
    rw [finishPoll_tbl]
    simpa [hcfg] using handle_keeps_wf hfront hu

/-! ### The pool -/

/-- Changing one slot of a pool with a change that leaves its activity time in the past keeps them all there (60_exceptions.md R179). -/
theorem modify_lastActivity_le {ss : List Slot} {i now : Nat} {g : Slot → Slot} (h : ∀ c ∈ ss, c.lastActivity ≤ now)
    (hg : ∀ c : Slot, c.lastActivity ≤ now → (g c).lastActivity ≤ now) : ∀ c ∈ ss.modify i g, c.lastActivity ≤ now := by
  intro c hc
  rcases mem_modify hc with hc | ⟨d, hd, rfl⟩
  · exact h c hc
  · exact hg d (h d hd)

/-- The link-down time a poll records is not in the future (10_state.md R39). -/
theorem linkDownAfter_le {up : Bool} {now t : Nat} {since : Option Nat} (h : ∀ t ∈ since, t ≤ now)
    (ht : t ∈ linkDownAfter up now since) : t ≤ now := by
  cases up with
  | true => simp [linkDownAfter] at ht
  | false =>
    cases since with
    | none =>
      obtain rfl : now = t := by simpa [linkDownAfter] using ht
      exact le_rfl
    | some t' => exact h t (by simpa [linkDownAfter] using ht)

/-- The pool of a state whose time has moved on (60_exceptions.md R179). -/
theorem takeInputs_poolWf {s : State} {p : PollInput} (h : s.PoolWf) : (takeInputs p s).PoolWf := by
  obtain ⟨htcp, hrtu, hlink, hslots⟩ := h
  exact ⟨htcp, hrtu, fun t ht => (hlink t ht).trans (Nat.le_add_right ..),
    fun c hc => (hslots c hc).trans (Nat.le_add_right ..)⟩

/-- A front end keeps the pool sound (40_framing.md R120 to R126). -/
theorem frontEnd_poolWf {s : State} (hcfg : s.cfg.wf) (h : s.PoolWf) : (frontEnd s).PoolWf := by
  obtain ⟨hmax, -⟩ := hcfg
  obtain ⟨htcp, hrtu, hlink, hslots⟩ := h
  obtain ⟨hc, -, -, -, -, -, hnow⟩ := frontEnd_frame s
  unfold State.PoolWf
  rw [hc, hnow]
  cases ht : s.cfg.transport with
  | rtu =>
    rw [frontEnd_rtu ht]
    exact ⟨nofun, fun _ => hrtu ht, hlink, hslots⟩
  | tcp =>
    obtain ⟨hcursor, hdown, g, hg, hpast⟩ := frontEnd_tcp ht
    obtain ⟨hlen, -⟩ := htcp ht
    rw [hcursor, hdown, hg]
    exact ⟨fun _ => ⟨by rw [List.length_modify, hlen], Nat.mod_lt _ (hmax ht)⟩, nofun,
      fun t => linkDownAfter_le hlink, modify_lastActivity_le hslots hpast⟩

/-- A transmit keeps the pool sound: it can only make a slot active now (40_framing.md R117). -/
theorem transmit_poolWf {s : State} (h : s.PoolWf) : (transmit s).PoolWf := by
  obtain ⟨htcp, hrtu, hlink, hslots⟩ := h
  obtain ⟨hc, -, -, -, -, -, -, hnow, hcursor, -, hdown⟩ := transmit_frame s
  unfold State.PoolWf
  rw [hc, hnow, hcursor, hdown]
  rcases transmit_slots s with hs | ⟨j, -, hs⟩ <;> rw [hs]
  · exact ⟨htcp, hrtu, hlink, hslots⟩
  · refine ⟨by simpa using htcp, fun ht => ?_, hlink, modify_lastActivity_le hslots fun c _ => le_rfl⟩
    obtain ⟨hnil, hzero⟩ := hrtu ht
    exact ⟨by simp [hnil], hzero⟩

/-- A poll keeps the pool sound. -/
theorem poll_poolWf {s t : State} (hcfg : s.cfg.wf) (h : s.PoolWf) (hp : poll s = .next t) : t.PoolWf := by
  have hfront : (frontEnd (enter .awaitRequest s)).PoolWf := frontEnd_poolWf (s := enter .awaitRequest s) hcfg h
  rcases poll_cases s with ⟨-, hs⟩ | ⟨-, hs⟩ <;> rw [hs] at hp
  · cases hp
    exact hfront
  · obtain ⟨u, hu, rfl⟩ := finishHandled_next hp
    obtain ⟨hc, hmux, -, -, hnow, -⟩ := handle_frame hu
    have hpool : u.PoolWf := by
      unfold State.PoolWf
      rw [hc, hmux, hnow]
      exact hfront
    exact transmit_poolWf hpool

/-! ### The invariant -/

/-- A poll keeps the invariant. -/
theorem poll_inv {s t : State} (h : s.Inv) (hp : poll s = .next t) : t.Inv := by
  obtain ⟨hcfg, htbl, ⟨-, -, hrsp, hinflight⟩, hpool⟩ := h
  unfold State.Inv
  rw [poll_cfg hp]
  exact ⟨hcfg, poll_keeps_wf htbl hp, poll_quiet hrsp hinflight hp, poll_poolWf hcfg hpool hp⟩

/-- Settles O24: a poll keeps each part of the invariant, and a hard reset establishes it anew. -/
theorem stepKeepsInvariant : Obligations.StepKeepsInvariant := by
  intro s t hinv h
  obtain ⟨hcfg, htbl, hquiet, hpool⟩ := hinv
  rcases step_cases s with ⟨-, hs⟩ | ⟨p, rest, -, hs⟩ | ⟨e, rest, -, hs⟩ <;> rw [hs] at h
  · cases h
    exact ⟨hcfg, htbl, hquiet, hpool⟩
  · refine poll_inv (s := takeInputs p { s with pending := rest }) ⟨hcfg, htbl, hquiet, ?_⟩ h
    exact takeInputs_poolWf (s := { s with pending := rest }) hpool
  · rw [hardReset_of_wf (s := { s with pending := rest }) hcfg] at h
    cases h
    exact ofCfg_inv hcfg _

/-! ### The cursor -/

/-- A poll takes nothing from the tape: its own event was taken before it (log 1). -/
theorem poll_pending {s t : State} (h : poll s = .next t) : t.pending = s.pending := by
  obtain ⟨-, -, -, -, hfront, -⟩ := frontEnd_frame (enter .awaitRequest s)
  rcases poll_cases s with ⟨-, hp⟩ | ⟨-, hp⟩ <;> rw [hp] at h
  · cases h
    exact hfront
  · obtain ⟨u, hu, rfl⟩ := finishHandled_next h
    obtain ⟨-, -, hpending, -⟩ := handle_frame hu
    obtain ⟨-, -, -, -, -, hsend, -⟩ := transmit_frame u
    exact hsend.trans (hpending.trans hfront)

/-- A TCP poll advances the cursor once, whatever it finds (40_framing.md R120, R125). -/
theorem poll_tcp_cursor {s t : State} (ht : s.cfg.transport = .tcp) (h : poll s = .next t) :
    t.mux.cursor = (s.mux.cursor + 1) % s.cfg.maxConn := by
  obtain ⟨hfront, -⟩ := frontEnd_tcp (s := enter .awaitRequest s) ht
  rcases poll_cases s with ⟨-, hp⟩ | ⟨-, hp⟩ <;> rw [hp] at h
  · cases h
    exact hfront
  · obtain ⟨u, hu, rfl⟩ := finishHandled_next h
    obtain ⟨-, hmux, -⟩ := handle_frame hu
    obtain ⟨-, -, -, -, -, -, -, -, hsend, -⟩ := transmit_frame u
    exact hsend.trans ((congrArg Mux.cursor hmux).trans hfront)

/-- A run of several steps begins with one that answers a next state. -/
theorem run_succ_next {M : Host.Core} {k : Nat} {s t : M.State} (h : M.run (k + 1) s = .next t) :
    ∃ u, M.step s = .next u ∧ M.run k u = .next t := by
  rw [Host.Core.run] at h
  split at h
  · next u hu => exact ⟨u, hu, h⟩
  · cases h
  · cases h

/-- Settles O28: each poll advances the cursor once, by induction on the number of polls. -/
theorem cursorAdvancesOncePerPoll : Obligations.CursorAdvancesOncePerPoll := by
  intro k
  induction k with
  | zero =>
    rintro s t ht ⟨-, -, -, htcp, -⟩ - - h
    obtain rfl : s = t := Host.Outcome.next.inj h
    obtain ⟨-, hlt⟩ := htcp ht
    exact (Nat.mod_eq_of_lt hlt).symm
  | succ k ih =>
    intro s t ht hinv hk hpolls h
    obtain ⟨ev, rest, hp⟩ : ∃ ev rest, s.pending = ev :: rest := by
      cases hp : s.pending with
      | nil => simp [hp] at hk
      | cons ev rest => exact ⟨ev, rest, rfl⟩
    rw [hp] at hk hpolls
    obtain ⟨p, rfl⟩ := hpolls ev (by simp)
    obtain ⟨u, hs, hrun⟩ : ∃ u, step s = .next u ∧ Sys2Proof.core.run k u = .next t := run_succ_next h
    have hu := hs
    rw [step_poll hp] at hu
    have hcursor := poll_tcp_cursor (s := takeInputs p { s with pending := rest }) ht hu
    have hrest : u.pending = rest := poll_pending hu
    have hcfg : u.cfg = s.cfg := poll_cfg (s := takeInputs p { s with pending := rest }) hu
    have hend : t.mux.cursor = (u.mux.cursor + k) % u.cfg.maxConn := by
      refine ih u t (hcfg ▸ ht) (stepKeepsInvariant s u hinv hs) ?_ ?_ hrun <;> rw [hrest]
      · simpa using hk
      · exact fun ev hev => hpolls ev (by simp [hev])
    calc t.mux.cursor = ((s.mux.cursor + 1) % s.cfg.maxConn + k) % s.cfg.maxConn := by rw [hend, hcfg, hcursor]; rfl
      _ = (s.mux.cursor + (k + 1)) % s.cfg.maxConn := by rw [Nat.mod_add_mod, Nat.add_assoc, Nat.add_comm 1 k]

/-! ### No stop -/

/-- A request whose hooks answer ends in a next state when slices are read (20_memory.md R57; 60_exceptions.md R184). -/
theorem exec_safe {s : State} (i : Instr) (hslice : s.cfg.limits.subrangeRead = .slice) (hhooks : s.env.HooksAnswer) :
    Safe (exec i s) := by
  obtain ⟨hread, hwrite⟩ := hhooks
  have hend := exec_ending i s
  revert hend
  generalize exec i s = o
  intro hend
  cases hend with
  | raised => exact ⟨_, rfl⟩
  | read => exact ⟨_, rfl⟩
  | write => exact ⟨_, rfl⟩
  | refused hk hm => simp [hslice] at hm
  | blocked h =>
    rcases h with ⟨-, hb⟩ | ⟨-, hb⟩
    · exact absurd hb hread
    · exact absurd hb hwrite

theorem handle_safe {s : State} (hslice : s.cfg.limits.subrangeRead = .slice) (hhooks : s.env.HooksAnswer) :
    Safe (handle s) := by
  rcases handle_cases s with ⟨c, -, h⟩ | ⟨i, -, h⟩ <;> rw [h]
  · exact ⟨_, rfl⟩
  · exact exec_safe i hslice hhooks

/-- A poll whose hooks answer ends in a next state when slices are read. -/
theorem poll_safe {s : State} (hslice : s.cfg.limits.subrangeRead = .slice) (hhooks : s.env.HooksAnswer) :
    Safe (poll s) := by
  obtain ⟨hcfg, -, -, -, -, henv, -⟩ := frontEnd_frame (enter .awaitRequest s)
  rcases poll_cases s with ⟨-, h⟩ | ⟨-, h⟩ <;> rw [h]
  · exact ⟨_, rfl⟩
  · obtain ⟨u, hu⟩ := handle_safe (s := frontEnd (enter .awaitRequest s)) (by rw [hcfg]; exact hslice) (by rw [henv]; exact hhooks)
    exact ⟨_, congrArg finishHandled hu⟩

/-- Settles O23: a poll stops only in a hook or in a refused sub-range read, and a hard reset only on an ill-formed configuration. -/
theorem nothingStopsTheEngine : Obligations.NothingStopsTheEngine := by
  intro s hcfg hslice hanswers
  rcases step_cases s with ⟨-, hs⟩ | ⟨p, rest, hp, hs⟩ | ⟨e, rest, -, hs⟩ <;> rw [hs]
  · exact ⟨_, rfl⟩
  · exact poll_safe (s := takeInputs p { s with pending := rest }) hslice (hanswers p rest hp)
  · exact ⟨_, hardReset_of_wf (s := { s with pending := rest }) hcfg e⟩

end Sys2Proof.Machine
end

section
/-! The decoder and the encoder (30_encoding.md R83 to R88, R96; 41_dispatch.md R132). -/

namespace Sys2Proof

/-! ### Each format read back -/

theorem decodeFixed_encoded (mk : Word → Word → Instr) (fc : Byte) (a q : Word) :
    decodeFixed mk (fc :: (u16be a ++ u16be q)) = .instr (mk a q) := by
  have ha : be16 (fc :: (u16be a ++ u16be q)) 1 = a := word_bytes a
  have hq : be16 (fc :: (u16be a ++ u16be q)) 3 = q := word_bytes q
  rw [decodeFixed, if_pos (by simp), ha, hq]

theorem decodeMultiple_encoded (mk : Word → Word → Byte → List Byte → Instr) (fc : Byte) (a q : Word) (bc : Byte)
    (data : List Byte) : decodeMultiple mk (fc :: (u16be a ++ u16be q ++ bc :: data)) = .instr (mk a q bc data) := by
  have ha : be16 (fc :: (u16be a ++ u16be q ++ bc :: data)) 1 = a := word_bytes a
  have hq : be16 (fc :: (u16be a ++ u16be q ++ bc :: data)) 3 = q := word_bytes q
  rw [decodeMultiple, if_neg (by simp; omega), ha, hq]
  rfl

/-- Settles O6: each function code selects its own format, whose fields are read where the encoder put them. -/
theorem decodeOfEncodeIsTheInstruction : Obligations.DecodeOfEncodeIsTheInstruction := by
  intro i
  cases i with
  | readCoils a q => exact decodeFixed_encoded .readCoils 0x01 a q
  | readDiscreteInputs a q => exact decodeFixed_encoded .readDiscreteInputs 0x02 a q
  | readHoldingRegisters a q => exact decodeFixed_encoded .readHoldingRegisters 0x03 a q
  | readInputRegisters a q => exact decodeFixed_encoded .readInputRegisters 0x04 a q
  | writeSingleCoil a v => exact decodeFixed_encoded .writeSingleCoil 0x05 a v
  | writeSingleRegister a v => exact decodeFixed_encoded .writeSingleRegister 0x06 a v
  | writeMultipleCoils a q bc data => exact decodeMultiple_encoded .writeMultipleCoils 0x0F a q bc data
  | writeMultipleRegisters a q bc data => exact decodeMultiple_encoded .writeMultipleRegisters 0x10 a q bc data

theorem encode_of_decodeFixed {mk : Word → Word → Instr} {fc : Byte} {rest : List Byte} {i : Instr}
    (h : decodeFixed mk (fc :: rest) = .instr i) (hmk : ∀ a v, encode (mk a v) = fc :: (u16be a ++ u16be v)) :
    encode i = fc :: rest := by
  obtain ⟨fc', a, b, c, d, hpdu, rfl⟩ := decodeFixed_instr h
  obtain ⟨rfl, rfl⟩ := List.cons.inj hpdu
  rw [hmk, u16be_append, u16be_append]
  rfl

theorem encode_of_decodeMultiple {mk : Word → Word → Byte → List Byte → Instr} {fc : Byte} {rest : List Byte} {i : Instr}
    (h : decodeMultiple mk (fc :: rest) = .instr i)
    (hmk : ∀ a q bc data, encode (mk a q bc data) = fc :: (u16be a ++ u16be q ++ bc :: data)) : encode i = fc :: rest := by
  obtain ⟨fc', a, b, c, d, bc, data, hpdu, rfl⟩ := decodeMultiple_instr h
  obtain ⟨rfl, rfl⟩ := List.cons.inj hpdu
  rw [hmk, u16be_append, u16be_append]
  rfl

/-- Settles O7: a PDU that a format admits is its function code and the bytes of its fields, and no other byte. -/
theorem decodedPduIsTheEncoding : Obligations.DecodedPduIsTheEncoding := by
  intro pdu i h
  cases pdu with
  | nil => cases h
  | cons fc rest =>
    rw [decode_cons] at h
    split_ifs at h with h1 h2 h3 h4 h5 h6 hF h10
    · exact encode_of_decodeFixed h fun _ _ => h1 ▸ rfl
    · exact encode_of_decodeFixed h fun _ _ => h2 ▸ rfl
    · exact encode_of_decodeFixed h fun _ _ => h3 ▸ rfl
    · exact encode_of_decodeFixed h fun _ _ => h4 ▸ rfl
    · exact encode_of_decodeFixed h fun _ _ => h5 ▸ rfl
    · exact encode_of_decodeFixed h fun _ _ => h6 ▸ rfl
    · exact encode_of_decodeMultiple h fun _ _ _ _ => hF ▸ rfl
    · exact encode_of_decodeMultiple h fun _ _ _ _ => h10 ▸ rfl

/-! ### The exceptions the decoder raises -/

theorem decodeFixed_raise {mk : Word → Word → Instr} {pdu : List Byte} {c : ExceptionCode} :
    decodeFixed mk pdu = .raise c ↔ pdu.length ≠ 5 ∧ c = .illegalDataValue := by
  unfold decodeFixed
  split_ifs with h
  · simp [h]
  · simp [h, eq_comm]

theorem decodeMultiple_raise {mk : Word → Word → Byte → List Byte → Instr} {pdu : List Byte} {c : ExceptionCode} :
    decodeMultiple mk pdu = .raise c ↔ pdu.length < 6 ∧ c = .illegalDataValue := by
  unfold decodeMultiple
  split_ifs with h
  · simp [h, eq_comm]
  · simp [h]

/-- The function codes of the fixed formats RQ and WS (30_encoding.md R84, R87). -/
theorem decode_of_fixed {fc : Byte} (rest : List Byte) (h : fc ∈ ([0x01, 0x02, 0x03, 0x04, 0x05, 0x06] : List Byte)) :
    ∃ mk, decode (fc :: rest) = decodeFixed mk (fc :: rest) := by
  simp only [List.mem_cons, List.not_mem_nil, or_false] at h
  rcases h with rfl | rfl | rfl | rfl | rfl | rfl <;> exact ⟨_, rfl⟩

/-- The function codes of the format WM (30_encoding.md R88). -/
theorem decode_of_multiple {fc : Byte} (rest : List Byte) (h : fc ∈ ([0x0F, 0x10] : List Byte)) :
    ∃ mk, decode (fc :: rest) = decodeMultiple mk (fc :: rest) := by
  simp only [List.mem_cons, List.not_mem_nil, or_false] at h
  rcases h with rfl | rfl <;> exact ⟨_, rfl⟩

/-- Any other function code is unsupported (30_encoding.md R96). -/
theorem decode_of_unsupported {fc : Byte} (rest : List Byte)
    (h : fc ∉ ([0x01, 0x02, 0x03, 0x04, 0x05, 0x06, 0x0F, 0x10] : List Byte)) :
    decode (fc :: rest) = .raise .illegalFunction := by
  simp only [List.mem_cons, List.not_mem_nil, or_false, not_or] at h
  obtain ⟨h1, h2, h3, h4, h5, h6, hF, h10⟩ := h
  rw [decode_cons, if_neg h1, if_neg h2, if_neg h3, if_neg h4, if_neg h5, if_neg h6, if_neg hF, if_neg h10]

/-- The eight supported function codes are the six of a fixed format and the two of WM. -/
theorem mem_supported_iff {fc : Byte} :
    fc ∈ ([0x01, 0x02, 0x03, 0x04, 0x05, 0x06, 0x0F, 0x10] : List Byte) ↔
      fc ∈ ([0x01, 0x02, 0x03, 0x04, 0x05, 0x06] : List Byte) ∨ fc ∈ ([0x0F, 0x10] : List Byte) :=
  List.mem_append (s := [0x01, 0x02, 0x03, 0x04, 0x05, 0x06])

/-- No function code has both formats. -/
theorem fixed_not_multiple {fc : Byte} (h : fc ∈ ([0x01, 0x02, 0x03, 0x04, 0x05, 0x06] : List Byte)) :
    fc ∉ ([0x0F, 0x10] : List Byte) := by
  revert fc
  decide

/-- Settles O8: a supported function code can only fail its length, and an unsupported one has no format. -/
theorem decoderRaisesIllegalFunctionExactlyOnUnsupportedCodes :
    Obligations.DecoderRaisesIllegalFunctionExactlyOnUnsupportedCodes := by
  intro fc rest
  refine ⟨fun h hmem => ?_, decode_of_unsupported rest⟩
  rcases mem_supported_iff.mp hmem with hfixed | hmultiple
  · obtain ⟨mk, hmk⟩ := decode_of_fixed rest hfixed
    simp [hmk, decodeFixed_raise] at h
  · obtain ⟨mk, hmk⟩ := decode_of_multiple rest hmultiple
    simp [hmk, decodeMultiple_raise] at h

/-- The decoder raises `IllegalDataValue` exactly on a supported function code with a length wrong for its format. -/
theorem decode_raise_illegalDataValue (fc : Byte) (rest : List Byte) :
    decode (fc :: rest) = .raise .illegalDataValue ↔ Machine.wrongLength fc (fc :: rest).length := by
  unfold Machine.wrongLength
  by_cases hmem : fc ∈ ([0x01, 0x02, 0x03, 0x04, 0x05, 0x06, 0x0F, 0x10] : List Byte)
  · rcases mem_supported_iff.mp hmem with hfixed | hmultiple
    · obtain ⟨mk, hmk⟩ := decode_of_fixed rest hfixed
      rw [hmk, decodeFixed_raise, or_iff_left fun h => fixed_not_multiple hfixed h.1]
      exact ⟨fun h => ⟨hfixed, h.1⟩, fun h => ⟨h.2, rfl⟩⟩
    · obtain ⟨mk, hmk⟩ := decode_of_multiple rest hmultiple
      rw [hmk, decodeMultiple_raise, or_iff_right fun h => fixed_not_multiple h.1 hmultiple]
      exact ⟨fun h => ⟨hmultiple, h.1⟩, fun h => ⟨h.2, rfl⟩⟩
  · rw [decode_of_unsupported rest hmem]
    rw [mem_supported_iff, not_or] at hmem
    obtain ⟨hfixed, hmultiple⟩ := hmem
    exact ⟨nofun, fun h => h.elim (fun h => absurd h.1 hfixed) fun h => absurd h.1 hmultiple⟩

/-- Settles O9: the decoder evaluated on the ten PDUs. -/
theorem examplePdusDecode : Obligations.ExamplePdusDecode := by
  unfold Obligations.ExamplePdusDecode
  decide

end Sys2Proof
end

section
/-! Bit packing (30_encoding.md R90) and the assembler forms of the multiple writes (30_encoding.md R101). -/

namespace Sys2Proof

/-! ### One byte of bit units -/

/-- The number of which a packed byte is made, bit by bit. -/
theorem foldr_testBit {bits : List Word} (h : ∀ b ∈ bits, b.toNat ≤ 1) (k : Nat) :
    (bits.foldr (fun (u : Word) acc => u.toNat + 2 * acc) 0).testBit k = (bits.getD k 0 == 1) := by
  induction bits generalizing k with
  | nil => simp
  | cons b bits ih =>
    have hb : b = 0 ∨ b = 1 := by
      rcases (show b.toNat = 0 ∨ b.toNat = 1 by have := h b (by simp); omega) with h0 | h1
      · exact .inl (BitVec.eq_of_toNat_eq h0)
      · exact .inr (BitVec.eq_of_toNat_eq h1)
    cases k with
    | zero => rcases hb with rfl | rfl <;> simp
    | succ k =>
      rw [List.foldr_cons, Nat.testBit_succ, List.getD_cons_succ, ← ih (fun c hc => h c (by simp [hc])) k]
      congr 1
      rcases hb with rfl | rfl
      · simp
      · simp; omega

theorem packByte_getLsbD {bits : List Word} (h : ∀ b ∈ bits, b.toNat ≤ 1) {k : Nat} (hk : k < 8) :
    (packByte bits).getLsbD k = (bits.getD k 0 == 1) := by
  rw [packByte, BitVec.getLsbD_ofNat, foldr_testBit h, decide_eq_true hk, Bool.true_and]

/-! ### Packing -/

/-- Byte `j` of a packing holds the units from `8j` on; past the last byte there are none. -/
theorem packBits_getD (bits : List Word) (j : Nat) :
    (packBits bits).getD j 0 = packByte ((bits.drop (8 * j)).take 8) := by
  by_cases hj : j < ceil8 bits.length
  · simp [packBits, hj]
  · have hdrop : bits.drop (8 * j) = [] := List.drop_eq_nil_of_le (by unfold ceil8 at hj; omega)
    simp [packBits, hj, hdrop, packByte]

/-- Unit `k` is bit `k mod 8` of byte `k div 8`; past the last unit the bits are 0. -/
theorem packBits_getLsbD {bits : List Word} (h : ∀ b ∈ bits, b.toNat ≤ 1) (k : Nat) :
    ((packBits bits).getD (k / 8) 0).getLsbD (k % 8) = (bits.getD k 0 == 1) := by
  have hk : k % 8 < 8 := Nat.mod_lt _ (by decide)
  have hchunk : ((bits.drop (8 * (k / 8))).take 8).getD (k % 8) 0 = bits.getD k 0 := by
    simp [hk, Nat.div_add_mod]
  rw [packBits_getD, packByte_getLsbD (fun b hb => h b (List.mem_of_mem_drop (List.mem_of_mem_take hb))) hk, hchunk]

/-! ### Unpacking -/

theorem unpackBits_getD {q k : Nat} (data : List Byte) (hk : k < q) :
    (unpackBits data q).getD k 0 = if (data.getD (k / 8) 0).getLsbD (k % 8) then 1 else 0 := by
  have hbit (b : Byte) (m : Nat) : (b >>> m).toNat % 2 = if b.getLsbD m then 1 else 0 := by
    rw [BitVec.toNat_ushiftRight, Nat.shiftRight_eq_div_pow, ← Nat.toNat_testBit, BitVec.testBit_toNat]
    cases b.getLsbD m <;> rfl
  rw [← hbit]
  simp [unpackBits, hk]

/-- Unpacking reads back the units packed. -/
theorem unpackBits_packBits {bits : List Word} (h : ∀ b ∈ bits, b.toNat ≤ 1) :
    unpackBits (packBits bits) bits.length = bits.map BitVec.toNat := by
  refine List.ext_getElem (by simp [unpackBits]) fun k hk hk' => ?_
  have hlt : k < bits.length := by simpa using hk'
  have hunit := unpackBits_getD (packBits bits) hlt
  rw [packBits_getLsbD h] at hunit
  rw [List.getD_eq_getElem _ _ hk, List.getD_eq_getElem _ _ hlt] at hunit
  rw [hunit, List.getElem_map]
  rcases (show bits[k].toNat = 0 ∨ bits[k].toNat = 1 by have := h _ (List.getElem_mem hlt); omega) with h0 | h1
  · rw [show bits[k] = 0 from BitVec.eq_of_toNat_eq h0]; rfl
  · rw [show bits[k] = 1 from BitVec.eq_of_toNat_eq h1]; rfl

/-- Settles O10: `packBits_getLsbD` places every unit, the absent ones included, and unpacking reads the same bits. -/
theorem bitPackingPlacesUnitKInBitKMod8 : Obligations.BitPackingPlacesUnitKInBitKMod8 := by
  refine ⟨fun bits h => ⟨packBits_length bits, fun k _ => packBits_getLsbD h k, fun k hk => ?_, unpackBits_packBits h⟩,
    fun data q => ⟨Machine.unpackBits_length data q, fun k hk => unpackBits_getD data hk⟩⟩
  rw [packBits_getLsbD h, List.getD_eq_default _ _ hk]
  rfl

/-! ### The assembler forms -/

theorem toNat_ofNat_of_le {w n m : Nat} (h : n ≤ m) (hm : m < 2 ^ w) : (BitVec.ofNat w n).toNat = n := by
  rw [BitVec.toNat_ofNat, Nat.mod_eq_of_lt (by omega)]

/-- The units an assembler form of the coils writes. -/
abbrev bitUnits (bs : List Bool) : List Word := bs.map (fun b => if b then 1 else 0)

theorem bitUnits_le (bs : List Bool) : ∀ u ∈ bitUnits bs, u.toNat ≤ 1 := by
  intro u hu
  obtain ⟨b, -, rfl⟩ := List.mem_map.mp hu
  cases b <;> decide

theorem bitUnits_toNat (bs : List Bool) : (bitUnits bs).map BitVec.toNat = bs.map (fun b => if b then 1 else 0) := by
  rw [List.map_map]
  refine List.map_congr_left fun b _ => ?_
  cases b <;> rfl

/-- The assembled WriteMultipleCoils is well-formed under every limit that its quantity and its byte count fit. -/
theorem asmWriteMultipleCoils_wf {lim : Limits} (a : Word) {bs : List Bool} (h1 : 1 ≤ bs.length) (h2 : bs.length ≤ 1968)
    (hlim : lim.qmaxWrBits = 1968) : (asmWriteMultipleCoils a bs).wf lim := by
  have hq : (BitVec.ofNat 16 bs.length).toNat = bs.length := toNat_ofNat_of_le h2 (by decide)
  have hbc : (BitVec.ofNat 8 (ceil8 bs.length)).toNat = ceil8 bs.length :=
    toNat_ofNat_of_le (m := 246) (by unfold ceil8; omega) (by decide)
  simp only [asmWriteMultipleCoils, Instr.wf, quantityWf, hlim, hq, hbc, packBits_length, List.length_map]
  exact ⟨⟨h1, h2⟩, trivial, trivial⟩

theorem asmWriteMultipleCoils_vals (a : Word) {bs : List Bool} (h : bs.length ≤ 1968) :
    Machine.writtenVals (asmWriteMultipleCoils a bs) = bs.map (fun b => if b then 1 else 0) := by
  have hq : (BitVec.ofNat 16 bs.length).toNat = (bitUnits bs).length := by
    rw [toNat_ofNat_of_le h (by decide), List.length_map]
  rw [asmWriteMultipleCoils, Machine.writtenVals, hq, unpackBits_packBits (bitUnits_le bs), bitUnits_toNat]

/-- The assembled WriteMultipleRegisters is well-formed under the limit of 30_encoding.md R93. -/
theorem asmWriteMultipleRegisters_wf {lim : Limits} (a : Word) {ws : List Word} (h1 : 1 ≤ ws.length) (h2 : ws.length ≤ 123)
    (hlim : lim.qmaxWrRegs = 123) : (asmWriteMultipleRegisters a ws).wf lim := by
  have hq : (BitVec.ofNat 16 ws.length).toNat = ws.length := toNat_ofNat_of_le h2 (by decide)
  have hbc : (BitVec.ofNat 8 (2 * ws.length)).toNat = 2 * ws.length :=
    toNat_ofNat_of_le (m := 246) (by omega) (by decide)
  simp only [asmWriteMultipleRegisters, Instr.wf, quantityWf, hlim, hq, hbc, packWords_length]
  exact ⟨⟨h1, h2⟩, trivial, trivial⟩

theorem asmWriteMultipleRegisters_vals (a : Word) {ws : List Word} (h : ws.length ≤ 123) :
    Machine.writtenVals (asmWriteMultipleRegisters a ws) = ws.map BitVec.toNat := by
  rw [asmWriteMultipleRegisters, Machine.writtenVals, toNat_ofNat_of_le h (by decide), unpackWords_packWords]

/-- Settles O12: the quantity and the byte count fit their fields, and unpacking undoes packing. -/
theorem assembledMultipleWritesCarryTheirValues : Obligations.AssembledMultipleWritesCarryTheirValues :=
  ⟨fun a _ h1 h2 => ⟨asmWriteMultipleCoils_wf a h1 h2 rfl, asmWriteMultipleCoils_vals a h2⟩,
   fun a _ h1 h2 => ⟨asmWriteMultipleRegisters_wf a h1 h2 rfl, asmWriteMultipleRegisters_vals a h2⟩⟩

end Sys2Proof
end

section
/-! The CRC residue and the frames built for transmission (40_framing.md R111 to R117; 30_encoding.md R99, R100). -/

namespace Sys2Proof.Machine

/-! ### The CRC of a whole frame (40_framing.md R111, R114) -/

/-- The low byte of a CRC, taken in, leaves the high byte. -/
theorem crcByte_low (c : Word) : crcByte c (c.extractLsb' 0 8) = c >>> 8 := by
  have hclear : ∀ i < 8, (c ^^^ (c.extractLsb' 0 8).setWidth 16).getLsbD i = false := by
    intro i hi
    simp [hi, show i < 16 by omega]
  rw [crcByte, crcBits_of_low_clear 8 _ hclear]
  apply BitVec.eq_of_getLsbD_eq
  intro i hi
  simp

/-- The high byte, taken in after it, leaves 0. -/
theorem crcByte_high (c : Word) : crcByte (c >>> 8) (c.extractLsb' 8 8) = 0 := by
  have hzero : (c >>> 8) ^^^ (c.extractLsb' 8 8).setWidth 16 = 0 := by
    apply BitVec.eq_of_getLsbD_eq
    intro i hi
    by_cases h8 : i < 8
    · simp [h8, hi]
    · simp [h8, BitVec.getLsbD_of_ge c (8 + i) (by omega)]
  rw [crcByte, hzero]
  rfl

/-- Settles O14: the two CRC bytes shift the CRC of the body out, low byte first. -/
theorem crcOfAWholeFrameIsZero : Obligations.CrcOfAWholeFrameIsZero := by
  intro body
  rw [crc16_append, u16le, List.foldl_cons, crcByte_low, List.foldl_cons, crcByte_high, List.foldl_nil]

/-- Settles O13: the CRC evaluated on the three strings. -/
theorem crcCheckValues : Obligations.CrcCheckValues := by
  unfold Obligations.CrcCheckValues
  decide +kernel

/-! ### RTU frames -/

/-- The parts of a byte string whose last two bytes are a word, low byte first. -/
theorem split_append_u16le (body : List Byte) (v : Word) :
    (body ++ u16le v).take ((body ++ u16le v).length - 2) = body ∧
      (body ++ u16le v).drop ((body ++ u16le v).length - 2) = u16le v := by
  simp

theorem rtuFrame_length (u : Byte) (pdu : List Byte) : (rtuFrame u pdu).length = pdu.length + 3 := by simp [rtuFrame]

/-- Every built RTU frame ends in the CRC of the rest, low byte first (40_framing.md R113). -/
theorem rtuFrame_crc (u : Byte) (pdu : List Byte) :
    (rtuFrame u pdu).drop ((rtuFrame u pdu).length - 2) =
      u16le (crc16 ((rtuFrame u pdu).take ((rtuFrame u pdu).length - 2))) := by
  obtain ⟨htake, hdrop⟩ := split_append_u16le (u :: pdu) (crc16 (u :: pdu))
  rw [rtuFrame, htake, hdrop]

/-- Settles O15: the four checks of a receiver, one by one, on the frame built. -/
theorem builtRtuFramePassesTheReceiverChecks : Obligations.BuiltRtuFramePassesTheReceiverChecks := by
  intro c u pdu hne hmax hunit
  have hpos : 1 ≤ pdu.length := List.length_pos_iff.mpr hne
  refine ⟨rtuDrop_none.mpr ⟨?_, rtuFrame_crc u pdu, ?_, hunit⟩, ?_, rfl⟩
  · rw [rtuFrame_length]; omega
  · rw [rtuFrame_length]; omega
  · rw [rtuPdu, rtuFrame_length]
    simp [rtuFrame]

/-! ### TCP frames -/

theorem mbapFrame_length (tid : Word) (u : Byte) (pdu : List Byte) : (mbapFrame tid u pdu).length = pdu.length + 7 := by
  simp [mbapFrame]; omega

theorem mbapFrame_tid (tid : Word) (u : Byte) (pdu : List Byte) : be16 (mbapFrame tid u pdu) 0 = tid := word_bytes tid

theorem mbapFrame_protocol (tid : Word) (u : Byte) (pdu : List Byte) : be16 (mbapFrame tid u pdu) 2 = 0 := word_bytes 0

theorem mbapFrame_unit (tid : Word) (u : Byte) (pdu : List Byte) : (mbapFrame tid u pdu).getD 6 0 = u := rfl

/-- The length field of a TCP frame, when it fits (30_encoding.md R100). -/
theorem mbapFrame_lengthField (tid : Word) (u : Byte) {pdu : List Byte} (h : pdu.length < 0xFFFF) :
    (be16 (mbapFrame tid u pdu) 4).toNat = 1 + pdu.length := by
  rw [show be16 (mbapFrame tid u pdu) 4 = BitVec.ofNat 16 (1 + pdu.length) from word_bytes _]
  exact toNat_ofNat_of_le (m := 0xFFFF) (by omega) (by decide)

/-- Settles O16: the fields of the header are read back where they were written, and the checks hold of them. -/
theorem builtMbapFramePassesTheReceiverChecks : Obligations.BuiltMbapFramePassesTheReceiverChecks := by
  intro c tid u pdu hne hmax hfits hunit
  have hpos : 1 ≤ pdu.length := List.length_pos_iff.mpr hne
  refine ⟨mbapDrop_none.mpr ?_, ?_, mbapFrame_tid tid u pdu, rfl⟩
  · rw [mbapFrame_length, mbapFrame_lengthField tid u hfits, mbapFrame_protocol, mbapFrame_unit]
    exact ⟨by omega, rfl, by omega, by omega, by omega, fun _ => by omega, hunit⟩
  · rw [mbapPdu, mbapFrame_lengthField tid u hfits, Nat.add_sub_cancel_left]
    exact List.take_length

end Sys2Proof.Machine
end

section
/-! Address resolution on well-formed maps (20_memory.md R54, R55), and the entries a request leaves alone (20_memory.md R65, R66, R71). -/

namespace Sys2Proof.Machine

/-- On a map of disjoint entries, two that cover the same non-empty range are the same row. -/
theorem covering_index_unique {rm : List Entry} (h : rm.Pairwise Entry.disjoint) {sp : Space} {addr n j k : Nat} {D E : Entry}
    (hn : 1 ≤ n) (hD : rm[j]? = some D) (hE : rm[k]? = some E) (hcD : covers D sp addr n = true)
    (hcE : covers E sp addr n = true) : j = k := by
  obtain ⟨hj, rfl⟩ := List.getElem?_eq_some_iff.mp hD
  obtain ⟨hk, rfl⟩ := List.getElem?_eq_some_iff.mp hE
  obtain ⟨hspD, hloD, hhiD⟩ := covers_iff.mp hcD
  obtain ⟨hspE, hloE, hhiE⟩ := covers_iff.mp hcE
  rw [List.pairwise_iff_getElem] at h
  rcases Nat.lt_trichotomy j k with hlt | heq | hgt
  · have := h j k hj hk hlt (hspD.trans hspE.symm)
    omega
  · exact heq
  · have := h k j hk hj hgt (hspE.trans hspD.symm)
    omega

/-- A well-formed entry covers nothing past 0xFFFF (20_memory.md R55). -/
theorem covers_past_space {D : Entry} {sp : Space} {addr n : Nat} (hD : D.wf) (h : 0x10000 < addr + n) :
    covers D sp addr n = false := by
  obtain ⟨-, hrange, -⟩ := hD
  rw [← Bool.not_eq_true, covers_iff]
  rintro ⟨-, -, hhi⟩
  omega

/-- Settles O34: the entry found covers the range as the given one does, so disjointness makes them one row. -/
theorem resolveIsUniqueAndStaysInTheSpace : Obligations.ResolveIsUniqueAndStaysInTheSpace := by
  rintro rm ⟨hwf, hdisjoint⟩ sp addr n hn
  refine ⟨fun e D hD hsp hlo hhi => ?_, fun h => resolve_none.mpr fun D hD => covers_past_space (hwf D hD) h⟩
  have hcD : covers D sp addr n = true := covers_iff.mpr ⟨hsp, hlo, hhi⟩
  cases hres : resolve rm sp addr n with
  | none =>
    have := resolve_none.mp hres D (List.mem_of_getElem? hD)
    simp [hcD] at this
  | some x =>
    obtain ⟨k, E⟩ := x
    obtain ⟨hE, hbounds⟩ := resolve_some hres
    obtain rfl := covering_index_unique hdisjoint hn hD hE hcD (covers_iff.mpr hbounds)
    obtain rfl : D = E := by simpa [hD] using hE
    rfl

/-! ### The table after a request -/

/-- A hook that supplies no value leaves the table as it is (20_memory.md R62). -/
theorem tableAfterRead_unchanged {e : Nat} {D : Entry} {s : State}
    (h : D.hasOnRead = true → ∀ us, s.env.onRead ≠ .refreshed us) : tableAfterRead e D s = s.tbl := by
  unfold tableAfterRead
  split
  · next us hr ha => exact absurd ha (h hr us)
  · rfl

/-- A refresh replaces no entry but the one read. -/
theorem tableAfterRead_getElem?_ne {e j : Nat} {D : Entry} {s : State} (h : e ≠ j) :
    (tableAfterRead e D s)[j]? = s.tbl[j]? := by
  unfold tableAfterRead
  split
  · exact List.getElem?_set_ne h
  · rfl

@[simp] theorem tableAfterRead_length (e : Nat) (D : Entry) (s : State) :
    (tableAfterRead e D s).length = s.tbl.length := by
  unfold tableAfterRead
  split
  · exact List.length_set
  · rfl

/-- What a request can do to the table: nothing, the refresh of the entry it reads, or the store to the entry it writes. -/
theorem exec_tbl {i : Instr} {s t : State} (h : exec i s = .next t) :
    t.tbl = s.tbl ∨ ∃ e D, resolve s.cfg.regmap (fcMap i).1 (startAddr i).toNat (unitCount i) = some (e, D) ∧
      (((fcMap i).2 = .read ∧ t.tbl = tableAfterRead e D s) ∨
       ((fcMap i).2 = .write ∧ t.tbl = s.tbl.set e ((writtenVals i).map (BitVec.ofNat 16)))) := by
  have hend := exec_ending i s
  rw [h] at hend
  cases hend with
  | raised c u hu =>
    obtain ⟨-, htbl, -⟩ := hu.agrees
    exact .inl htbl
  | read e D u hu hk hw hres hhook => exact .inr ⟨e, D, hres, .inl ⟨hk, rfl⟩⟩
  | write e D u hu hk hw hres hlen hhook => exact .inr ⟨e, D, hres, .inr ⟨hk, rfl⟩⟩

/-- A request keeps every entry but the one it resolves to (20_memory.md R71). -/
theorem exec_tbl_other {i : Instr} {s t : State} {j : Nat} (h : exec i s = .next t)
    (hj : ∀ e D, resolve s.cfg.regmap (fcMap i).1 (startAddr i).toNat (unitCount i) = some (e, D) → j ≠ e) :
    t.tbl[j]? = s.tbl[j]? := by
  rcases exec_tbl h with htbl | ⟨e, D, hres, ⟨-, htbl⟩ | ⟨-, htbl⟩⟩ <;> rw [htbl]
  · exact tableAfterRead_getElem?_ne (hj e D hres).symm
  · exact List.getElem?_set_ne (hj e D hres).symm

theorem exec_tbl_length {i : Instr} {s t : State} (h : exec i s = .next t) : t.tbl.length = s.tbl.length := by
  rcases exec_tbl h with htbl | ⟨e, D, -, ⟨-, htbl⟩ | ⟨-, htbl⟩⟩ <;> rw [htbl]
  · exact tableAfterRead_length e D s
  · exact List.length_set

/-- A read changes the table only through the refresh of the hook of the entry it reads. -/
theorem exec_read_tbl {i : Instr} {s t : State} (h : exec i s = .next t) (hk : (fcMap i).2 = .read)
    (hhook : ∀ e D, resolve s.cfg.regmap (fcMap i).1 (startAddr i).toNat (unitCount i) = some (e, D) →
      D.hasOnRead = true → ∀ us, s.env.onRead ≠ .refreshed us) : t.tbl = s.tbl := by
  rcases exec_tbl h with htbl | ⟨e, D, hres, ⟨-, htbl⟩ | ⟨hwrite, -⟩⟩
  · exact htbl
  · rw [htbl, tableAfterRead_unchanged (hhook e D hres)]
  · rw [hk] at hwrite
    cases hwrite

/-- Only reads reach the two read-only spaces (20_memory.md R50, R51). -/
theorem readOnlySpace_read {i : Instr} (h : (fcMap i).1 = .discreteInput ∨ (fcMap i).1 = .inputRegister) :
    (fcMap i).2 = .read := by
  cases i <;> simp_all [fcMap]

/-- Settles O35: a request changes the entry it resolves to alone, which is of the function's space, and in a read-only
space the request is a read, which changes it only by a refresh. -/
theorem requestChangesOnlyItsOwnSpace : Obligations.RequestChangesOnlyItsOwnSpace := by
  intro i s t e D h hD
  have hother (hsp : D.space ≠ (fcMap i).1) : t.tbl[e]? = s.tbl[e]? := by
    refine exec_tbl_other h fun e' D' hres => ?_
    rintro rfl
    obtain ⟨hD', hsp', -⟩ := resolve_some hres
    obtain rfl : D = D' := by simpa [hD] using hD'
    exact hsp hsp'
  refine ⟨hother, fun hro hhook => ?_⟩
  by_cases hsp : D.space = (fcMap i).1
  swap
  · exact hother hsp
  by_cases hres : ∃ D', resolve s.cfg.regmap (fcMap i).1 (startAddr i).toNat (unitCount i) = some (e, D')
  swap
  · exact exec_tbl_other h fun e' D' hres' he => hres ⟨D', he ▸ hres'⟩
  rw [exec_read_tbl h (readOnlySpace_read (hsp ▸ hro))]
  intro e' D' hres' hr us ha
  obtain ⟨D'', hres⟩ := hres
  obtain ⟨rfl, rfl⟩ : e = e' ∧ D'' = D' := by simpa [hres] using hres'
  obtain ⟨hD'', -⟩ := resolve_some hres
  obtain rfl : D = D'' := by simpa [hD] using hD''
  rcases hhook with hno | hun
  · simp [hno] at hr
  · simp [hun] at ha

end Sys2Proof.Machine

namespace Sys2Proof

open Machine

/-- Settles O36: the fields by `exec_frame`, the table by `exec_tbl`. (In `Sys2Proof.Machine` the name is a function of the model.) -/
theorem requestFrame : Obligations.RequestFrame := by
  intro i s t h
  obtain ⟨hcfg, hmux, hpending, henv, hnow, -, hfc, hvalid, hpeer, hunit, htid, hpdu⟩ := exec_frame h
  exact ⟨hcfg, hmux, hpending, henv, hnow, hvalid, hpeer, hunit, htid, hpdu, hfc, exec_tbl_length h,
    fun _ hj => exec_tbl_other h hj, fun hk hhook => exec_read_tbl h hk fun _ _ _ _ => hhook⟩

end Sys2Proof
end

section
/-! The exceptions of a request (41_dispatch.md R133, R135, R136; 60_exceptions.md R160; 20_memory.md R58). -/

namespace Sys2Proof.Machine

/-! ### The checks of the validator -/

/-- A request that `Validate` raises on ends in that exception (41_dispatch.md R133). -/
theorem exec_validate_raise {i : Instr} {s : State} {c : ExceptionCode} (hw : i.wf s.cfg.limits)
    (h : validate (fcMap i).1 (startAddr i) (unitCount i) s = some c) :
    ∃ u, Working s u ∧ exec i s = .next (takeException c u) := by
  have hv : Working s (enter .validate (latched i s)) := (latched_working i s).enter _
  obtain ⟨hcfg, -⟩ := hv.agrees
  have hraise : validate (fcMap i).1 (startAddr i) (unitCount i) (enter .validate (latched i s)) = some c := by
    rw [← h]
    simp only [validate, hcfg]
  refine ⟨_, hv, ?_⟩
  cases hk : (fcMap i).2 with
  | read => simp only [exec_read hk hw, validateThen, hraise]
  | write => simp only [exec_write hk hw, validateThen, writtenVals_length hk, hraise]

theorem spaceDefined_eq_false {rm : List Entry} {sp : Space} : spaceDefined rm sp = false ↔ ∀ D ∈ rm, D.space ≠ sp := by
  simp [spaceDefined]

/-- A well-formed request to a space without entries (20_memory.md R52). -/
theorem exec_undefinedSpace {i : Instr} {s : State} (hw : i.wf s.cfg.limits)
    (h : spaceDefined s.cfg.regmap (fcMap i).1 = false) :
    ∃ u, Working s u ∧ exec i s = .next (takeException .illegalFunction u) :=
  exec_validate_raise hw (by simp [validate, h])

/-- A well-formed request of a defined space that resolves to no entry (20_memory.md R55). -/
theorem exec_unresolved {i : Instr} {s : State} (hw : i.wf s.cfg.limits)
    (hdef : spaceDefined s.cfg.regmap (fcMap i).1 = true)
    (h : resolve s.cfg.regmap (fcMap i).1 (startAddr i).toNat (unitCount i) = none) :
    ∃ u, Working s u ∧ exec i s = .next (takeException .illegalDataAddress u) :=
  exec_validate_raise hw (by simp [validate, hdef, h])

/-! ### Requests that resolve -/

/-- A read that resolves ends as its access does (42_read_functions.md R140). -/
theorem exec_read_resolved {i : Instr} {s : State} {e : Nat} {D : Entry} (hk : (fcMap i).2 = .read) (hw : i.wf s.cfg.limits)
    (hres : resolve s.cfg.regmap (fcMap i).1 (startAddr i).toNat (unitCount i) = some (e, D)) :
    exec i s = conclude (tableRead (fcMap i).1 (startAddr i) (unitCount i) (enter .execute (latched i s)))
      (enter .execute (latched i s)) (normalPdu i) := by
  obtain ⟨hcfg, -⟩ := ((latched_working i s).enter .validate).agrees
  rw [exec_read hk hw, validateThen, validate_none (by rw [hcfg]; exact hres)]

/-- A write that resolves ends as its access does (43_write_functions.md R146). -/
theorem exec_write_resolved {i : Instr} {s : State} {e : Nat} {D : Entry} (hk : (fcMap i).2 = .write) (hw : i.wf s.cfg.limits)
    (hres : resolve s.cfg.regmap (fcMap i).1 (startAddr i).toNat (unitCount i) = some (e, D)) :
    exec i s = conclude (tableWrite (fcMap i).1 (startAddr i) (writtenVals i) (enter .execute (latched i s)))
      (enter .execute (latched i s)) (fun _ => normalPdu i []) := by
  obtain ⟨hcfg, -⟩ := ((latched_working i s).enter .validate).agrees
  rw [exec_write hk hw, validateThen, validate_none (by rw [hcfg, writtenVals_length hk]; exact hres)]

/-- A write resolves in the state in which it executes as it does in the state it started from. -/
theorem resolve_execute {i : Instr} {s : State} {e : Nat} {D : Entry} (hk : (fcMap i).2 = .write)
    (hres : resolve s.cfg.regmap (fcMap i).1 (startAddr i).toNat (unitCount i) = some (e, D)) :
    resolve (enter .execute (latched i s)).cfg.regmap (fcMap i).1 (startAddr i).toNat (writtenVals i).length = some (e, D) := by
  obtain ⟨hcfg, -⟩ := ((latched_working i s).enter .execute).agrees
  rw [hcfg, writtenVals_length hk]
  exact hres

/-- A write of another count than the entry's (20_memory.md R58). -/
theorem exec_wrongCount {i : Instr} {s : State} {e : Nat} {D : Entry} (hk : (fcMap i).2 = .write) (hw : i.wf s.cfg.limits)
    (hres : resolve s.cfg.regmap (fcMap i).1 (startAddr i).toNat (unitCount i) = some (e, D)) (hlen : unitCount i ≠ D.count) :
    ∃ u, Working s u ∧ exec i s = .next (takeException .illegalDataValue u) := by
  refine ⟨_, (latched_working i s).enter .execute, ?_⟩
  rw [exec_write_resolved hk hw hres, tableWrite_eq (resolve_execute hk hres), if_neg, conclude]
  rw [writtenVals_length hk]
  exact fun h => hlen h.1

/-! ### The order of the checks -/

/-- A request that takes an exception from a state in which it is worked on has raised it, and no more. -/
theorem raised_of_exec {i : Instr} {s : State} {c : ExceptionCode}
    (h : ∃ u, Working s u ∧ exec i s = .next (takeException c u)) : ∃ t, exec i s = .next t ∧ Raised s t c := by
  obtain ⟨u, hu, he⟩ := h
  exact ⟨_, he, raised_takeException hu⟩

/-- Settles O37: one lemma per check, in the order of R135. -/
theorem firstFailingCheckDecidesTheException : Obligations.FirstFailingCheckDecidesTheException := by
  intro i s
  refine ⟨fun hw => raised_of_exec (exec_illFormed hw), fun hw hnone => ?_, fun hw hsome hres => ?_,
    fun e D hw hk hres hlen => raised_of_exec (exec_wrongCount hk hw hres hlen)⟩
  · exact raised_of_exec (exec_undefinedSpace hw (spaceDefined_eq_false.mpr hnone))
  · refine raised_of_exec (exec_unresolved hw ?_ hres)
    obtain ⟨D, hD, hsp⟩ := hsome
    rw [← Bool.not_eq_false, spaceDefined_eq_false]
    exact fun hnone => hnone D hD hsp

/-- Settles O52: an ill-formed write and one of another count raise alike; one of the entry's count that the entry
covers can start only at its base. -/
theorem writeSucceedsOnlyOnAWholeEntry : Obligations.WriteSucceedsOnlyOnAWholeEntry := by
  intro i s e D hk hres
  refine ⟨fun hlen => ?_, fun hlen => ?_⟩
  · by_cases hw : i.wf s.cfg.limits
    · exact raised_of_exec (exec_wrongCount hk hw hres hlen)
    · exact raised_of_exec (exec_illFormed hw)
  · obtain ⟨-, -, hlo, hhi⟩ := resolve_some hres
    exact BitVec.eq_of_toNat_eq (by omega)

/-- Settles O38: a response with bit 7 set is no normal one, so the request raised, from a state in which it had only
worked on its own fields. -/
theorem exceptionIsPrecise : Obligations.ExceptionIsPrecise := by
  intro i s t b r h hrsp hb
  have hend := exec_ending i s
  rw [h] at hend
  cases hend with
  | raised c u hu =>
    obtain ⟨-, htbl, -, -, -, -, -, htrace, -⟩ := hu.agrees
    exact ⟨htbl, htrace⟩
  | read => simp [normalPdu_msb hrsp] at hb
  | write => simp [normalPdu_msb hrsp] at hb

/-! ### The length of a response (30_encoding.md R98) -/

/-- The length of a normal response to a read, from the number of units it returns. -/
theorem normalPdu_read_length {i : Instr} (hk : (fcMap i).2 = .read) (us : List Word) :
    (normalPdu i us).length = 2 + if (fcMap i).1.isBit then ceil8 us.length else 2 * us.length := by
  cases i with
  | readCoils a q => simp [normalPdu, fcMap, Space.isBit]; omega
  | readDiscreteInputs a q => simp [normalPdu, fcMap, Space.isBit]; omega
  | readHoldingRegisters a q => simp [normalPdu, fcMap, Space.isBit]; omega
  | readInputRegisters a q => simp [normalPdu, fcMap, Space.isBit]; omega
  | writeSingleCoil a v => cases hk
  | writeSingleRegister a v => cases hk
  | writeMultipleCoils a q bc data => cases hk
  | writeMultipleRegisters a q bc data => cases hk

/-- A normal response to a write echoes two words. -/
theorem normalPdu_write_length {i : Instr} (hk : (fcMap i).2 = .write) (us : List Word) : (normalPdu i us).length = 5 := by
  cases i with
  | readCoils a q => cases hk
  | readDiscreteInputs a q => cases hk
  | readHoldingRegisters a q => cases hk
  | readInputRegisters a q => cases hk
  | writeSingleCoil a v => rfl
  | writeSingleRegister a v => rfl
  | writeMultipleCoils a q bc data => rfl
  | writeMultipleRegisters a q bc data => rfl

/-- The quantity of a well-formed read, under the limits of 00_scope.md R9. -/
theorem unitCount_read_le {i : Instr} {lim : Limits} (hk : (fcMap i).2 = .read) (hw : i.wf lim)
    (hbits : lim.qmaxRdBits = 2000) (hregs : lim.qmaxRdRegs = 125) :
    unitCount i ≤ if (fcMap i).1.isBit then 2000 else 125 := by
  cases i with
  | readCoils a q => exact hw.2.trans (by rw [hbits]; rfl)
  | readDiscreteInputs a q => exact hw.2.trans (by rw [hbits]; rfl)
  | readHoldingRegisters a q => exact hw.2.trans (by rw [hregs]; rfl)
  | readInputRegisters a q => exact hw.2.trans (by rw [hregs]; rfl)
  | writeSingleCoil a v => cases hk
  | writeSingleRegister a v => cases hk
  | writeMultipleCoils a q bc data => cases hk
  | writeMultipleRegisters a q bc data => cases hk

/-- Settles O41: a read returns at most as many units as it asks for, an exception and an echo are short. -/
theorem responseIsAtMost252Bytes : Obligations.ResponseIsAtMost252Bytes := by
  intro i s t hbits hregs h
  have hend := exec_ending i s
  rw [h] at hend
  cases hend with
  | raised c u hu => simp [exceptionPdu]
  | read e D u hu hk hw hres hhook =>
    have hq := unitCount_read_le hk hw hbits hregs
    rw [respond_rsp, normalPdu_read_length hk, List.length_take]
    cases hb : (fcMap i).1.isBit <;> simp only [hb, ceil8, if_true, if_false, Bool.false_eq_true] at hq ⊢
    · exact ⟨by omega, fun h => ⟨hk, by omega⟩⟩
    · exact ⟨by omega, fun h => ⟨hk, by omega⟩⟩
  | write e D u hu hk => simp [normalPdu_write_length hk]

end Sys2Proof.Machine
end

section
/-! The read and write functions: their completions, their stops, and the round trips (42_read_functions.md; 43_write_functions.md; 20_memory.md R57 to R65). -/

namespace Sys2Proof.Machine

/-! ### Completions -/

/-- Settles O42: `exec_read_done` at ReadCoils. -/
theorem readCoilsAnswersTheStoredBits : Obligations.ReadCoilsAnswersTheStoredBits :=
  fun _ a q _ _ h1 h2 hres hsub hhook => exec_read_done (i := .readCoils a q) rfl ⟨h1, h2⟩ hres hsub hhook

/-- Settles O43: `exec_read_done` at ReadDiscreteInputs. -/
theorem readDiscreteInputsAnswersTheStoredBits : Obligations.ReadDiscreteInputsAnswersTheStoredBits :=
  fun _ a q _ _ h1 h2 hres hsub hhook => exec_read_done (i := .readDiscreteInputs a q) rfl ⟨h1, h2⟩ hres hsub hhook

/-- Settles O44: `exec_read_done` at ReadInputRegisters. -/
theorem readInputRegistersAnswersTheStoredWords : Obligations.ReadInputRegistersAnswersTheStoredWords :=
  fun _ a q _ _ h1 h2 hres hsub hhook => exec_read_done (i := .readInputRegisters a q) rfl ⟨h1, h2⟩ hres hsub hhook

/-- Settles O45: `exec_read_done` at ReadHoldingRegisters. -/
theorem readHoldingRegistersAnswersTheStoredWords : Obligations.ReadHoldingRegistersAnswersTheStoredWords :=
  fun _ a q _ _ h1 h2 hres hsub hhook => exec_read_done (i := .readHoldingRegisters a q) rfl ⟨h1, h2⟩ hres hsub hhook

/-- Settles O48: `exec_write_done` at WriteSingleCoil; the one value stored is the bit as a word. -/
theorem writeSingleCoilStoresTheBitAndEchoes : Obligations.WriteSingleCoilStoresTheBitAndEchoes := by
  intro s a v e D hv hres hlen hhook
  have hunit : [if v = 0xFF00 then 1 else 0] = (writtenVals (.writeSingleCoil a v)).map (BitVec.ofNat 16) := by
    rw [writtenVals, List.map_singleton, apply_ite (BitVec.ofNat 16)]
    rfl
  rw [exec_write_done (i := .writeSingleCoil a v) rfl hv hres hlen.symm hhook, hunit]
  rfl

/-- Settles O49: `exec_write_done` at WriteSingleRegister; the one value stored is the word itself. -/
theorem writeSingleRegisterStoresTheWordAndEchoes : Obligations.WriteSingleRegisterStoresTheWordAndEchoes := by
  intro s a v e D hres hlen hhook
  have hunit : [v] = (writtenVals (.writeSingleRegister a v)).map (BitVec.ofNat 16) := by
    simp [writtenVals]
  rw [exec_write_done (i := .writeSingleRegister a v) rfl trivial hres hlen.symm hhook, hunit]
  rfl

/-- Settles O50: `exec_write_done` at WriteMultipleCoils. -/
theorem writeMultipleCoilsStoresAllBitsAndEchoes : Obligations.WriteMultipleCoilsStoresAllBitsAndEchoes :=
  fun _ a q bc data _ _ h1 h2 hbc hdata hres hlen hhook =>
    exec_write_done (i := .writeMultipleCoils a q bc data) rfl ⟨⟨h1, h2⟩, hbc, hdata⟩ hres hlen.symm hhook

/-- Settles O51: `exec_write_done` at WriteMultipleRegisters. -/
theorem writeMultipleRegistersStoresAllWordsAndEchoes : Obligations.WriteMultipleRegistersStoresAllWordsAndEchoes :=
  fun _ a q bc data _ _ h1 h2 hbc hdata hres hlen hhook =>
    exec_write_done (i := .writeMultipleRegisters a q bc data) rfl ⟨⟨h1, h2⟩, hbc, hdata⟩ hres hlen.symm hhook

/-! ### Stops -/

/-- A read of a part of an entry is refused when sub-range reads have no meaning (20_memory.md R57). -/
theorem exec_read_refused {i : Instr} {s : State} {e : Nat} {D : Entry} (hk : (fcMap i).2 = .read) (hw : i.wf s.cfg.limits)
    (hres : resolve s.cfg.regmap (fcMap i).1 (startAddr i).toNat (unitCount i) = some (e, D))
    (hm : s.cfg.limits.subrangeRead = .refuse) (hpart : startAddr i ≠ D.base ∨ unitCount i ≠ D.count) :
    exec i s = .refused .subrangeRead := by
  obtain ⟨hcfg, -⟩ := ((latched_working i s).enter .execute).agrees
  rw [exec_read_resolved hk hw hres, tableRead, hcfg]
  simp only [hres, if_pos (And.intro hpart hm), conclude]

/-- A read whose hook never answers is stuck, unless it is refused first (93_implementation_defined.md I10). -/
theorem exec_read_blocked {i : Instr} {s : State} {e : Nat} {D : Entry} (hk : (fcMap i).2 = .read) (hw : i.wf s.cfg.limits)
    (hres : resolve s.cfg.regmap (fcMap i).1 (startAddr i).toNat (unitCount i) = some (e, D))
    (hsub : s.cfg.limits.subrangeRead = .slice ∨ (startAddr i = D.base ∧ unitCount i = D.count))
    (hhook : D.hasOnRead = true) (hb : s.env.onRead = .blocks) : exec i s = .fault .hookBlocked := by
  obtain ⟨hcfg, -, -, -, -, henv, -⟩ := ((latched_working i s).enter .execute).agrees
  have hno : ¬ ((startAddr i ≠ D.base ∨ unitCount i ≠ D.count) ∧ s.cfg.limits.subrangeRead = .refuse) := by
    rintro ⟨hpart, hm⟩
    rcases hsub with hslice | ⟨hbase, hcount⟩
    · simp [hslice] at hm
    · exact hpart.elim (· hbase) (· hcount)
  rw [exec_read_resolved hk hw hres, tableRead, hcfg]
  simp only [hres, if_neg hno, hookRead_blocks (s := enter .execute (latched i s)) hhook (by rw [henv]; exact hb), conclude]

/-- A write of a whole entry whose hook never completes is stuck (93_implementation_defined.md I10). -/
theorem exec_write_blocked {i : Instr} {s : State} {e : Nat} {D : Entry} (hk : (fcMap i).2 = .write) (hw : i.wf s.cfg.limits)
    (hres : resolve s.cfg.regmap (fcMap i).1 (startAddr i).toNat (unitCount i) = some (e, D)) (hlen : unitCount i = D.count)
    (hhook : D.hasOnWrite = true) (hb : s.env.onWrite = .blocks) : exec i s = .fault .hookBlocked := by
  obtain ⟨-, -, -, -, -, henv, -⟩ := ((latched_working i s).enter .execute).agrees
  rw [exec_write_resolved hk hw hres, tableWrite_eq (resolve_execute hk hres),
    if_pos ⟨(writtenVals_length hk).trans hlen, writtenVals_fit i⟩,
    hookWrite_blocks (s := storeUnits e ((writtenVals i).map (BitVec.ofNat 16)) (enter .execute (latched i s))) hhook
      (by rw [storeUnits_env, henv]; exact hb), conclude]

/-- Settles O47: the refusal comes before the hook. -/
theorem subrangeReadIsRefusedWhenSelected : Obligations.SubrangeReadIsRefusedWhenSelected :=
  fun _ _ _ _ hk hw hm hres hpart => exec_read_refused hk hw hres hm hpart

/-- Settles O56: the two hooks, each reached by a request that passes every check. -/
theorem hookThatNeverAnswersIsStuck : Obligations.HookThatNeverAnswersIsStuck :=
  fun _ _ _ _ hw hres => ⟨fun hk hhook hb hslice => exec_read_blocked hk hw hres (.inl hslice) hhook hb,
    fun hk hlen hhook hb => exec_write_blocked hk hw hres hlen hhook hb⟩

/-! ### Whole entries -/

/-- A well-formed read of a whole entry whose hook, if any, answers `unchanged` returns the entry (42_read_functions.md R145). -/
theorem exec_read_whole {i : Instr} {s : State} {e : Nat} {D : Entry} {us : List Word} (hk : (fcMap i).2 = .read)
    (hw : i.wf s.cfg.limits) (hres : resolve s.cfg.regmap (fcMap i).1 (startAddr i).toNat (unitCount i) = some (e, D))
    (hbase : startAddr i = D.base) (hcount : unitCount i = D.count) (hus : s.tbl[e]? = some us) (hlen : us.length = D.count)
    (hhook : D.hasOnRead = true → s.env.onRead = .unchanged) :
    ∃ t, exec i s = .next t ∧ t.tbl = s.tbl ∧ t.rsp = normalPdu i us := by
  have hsame : tableAfterRead e D s = s.tbl := tableAfterRead_unchanged fun hr us => by simp [hhook hr]
  refine ⟨_, exec_read_done hk hw hres (.inr ⟨hbase, hcount⟩) (fun hr => by simp [hhook hr]), hsame, ?_⟩
  have hwhole : ((s.tbl.getD e []).drop ((startAddr i).toNat - D.base.toNat)).take (unitCount i) = us := by
    rw [List.getD_eq_getElem?_getD, hus, hbase, Nat.sub_self, hcount, ← hlen]
    exact List.take_length
  rw [respond_rsp, hsame, hwhole]

/-- Settles O46: both word spaces, at the entry's base and with its count. -/
theorem wholeEntryReadReturnsWordsInStoredOrder : Obligations.WholeEntryReadReturnsWordsInStoredOrder := by
  intro s sp i e D ws hi hmax h1 h3 hres hws hlen hhook
  have hq : (BitVec.ofNat 16 D.count).toNat = D.count := toNat_ofNat_of_le h3 (by decide)
  have hwf : quantityWf (BitVec.ofNat 16 D.count) s.cfg.limits.qmaxRdRegs := by
    rw [quantityWf, hq]
    exact ⟨h1, h3.trans hmax⟩
  rcases hi with ⟨rfl, rfl⟩ | ⟨rfl, rfl⟩
  · obtain ⟨t, ht, htbl, hrsp⟩ := exec_read_whole (i := .readHoldingRegisters D.base (BitVec.ofNat 16 D.count)) rfl hwf
      (by rw [unitCount, hq]; exact hres) rfl hq hws hlen hhook
    exact ⟨t, ht, htbl, by rw [hrsp]; rfl⟩
  · obtain ⟨t, ht, htbl, hrsp⟩ := exec_read_whole (i := .readInputRegisters D.base (BitVec.ofNat 16 D.count)) rfl hwf
      (by rw [unitCount, hq]; exact hres) rfl hq hws hlen hhook
    exact ⟨t, ht, htbl, by rw [hrsp]; rfl⟩

/-- A write of a whole entry that answers a next state has stored its values: its hook, if any, has completed. -/
theorem exec_write_stores {i : Instr} {s t : State} {e : Nat} {D : Entry} (hk : (fcMap i).2 = .write) (hw : i.wf s.cfg.limits)
    (hres : resolve s.cfg.regmap (fcMap i).1 (startAddr i).toNat (unitCount i) = some (e, D)) (hlen : unitCount i = D.count)
    (h : exec i s = .next t) : t.tbl = s.tbl.set e ((writtenVals i).map (BitVec.ofNat 16)) := by
  by_cases hb : D.hasOnWrite = true ∧ s.env.onWrite = .blocks
  · rw [exec_write_blocked hk hw hres hlen hb.1 hb.2] at h
    cases h
  · rw [exec_write_done hk hw hres hlen fun h1 h2 => hb ⟨h1, h2⟩] at h
    cases h
    rfl

/-- The entry a whole write has stored, in the table it leaves (20_memory.md R65). -/
theorem exec_write_entry {i : Instr} {s t : State} {e : Nat} {D : Entry} (hk : (fcMap i).2 = .write) (hw : i.wf s.cfg.limits)
    (hform : Memory.wf s.cfg.regmap s.tbl = true)
    (hres : resolve s.cfg.regmap (fcMap i).1 (startAddr i).toNat (unitCount i) = some (e, D)) (hlen : unitCount i = D.count)
    (h : exec i s = .next t) : t.tbl[e]? = some ((writtenVals i).map (BitVec.ofNat 16)) := by
  have he : e < s.tbl.length := by
    rw [Memory.wf_length hform]
    exact resolve_index_lt hres
  rw [exec_write_stores hk hw hres hlen h, List.getElem?_set_self he]

/-- The units stored for the values of a list of words are those words. -/
theorem map_ofNat_toNat (ws : List Word) : (ws.map BitVec.toNat).map (BitVec.ofNat 16) = ws := by
  simp [Function.comp_def]

/-- Settles O53: the write leaves the words in the entry, and the whole read returns them. -/
theorem readAfterWriteReturnsTheWrittenWords : Obligations.ReadAfterWriteReturnsTheWrittenWords := by
  intro s t s' e D ws hhook hform h1 h123 hwr hrd hres hcount hwrite htbl hcfg
  have hq : (BitVec.ofNat 16 ws.length).toNat = ws.length := toNat_ofNat_of_le h123 (by decide)
  have hentry : t.tbl[e]? = some ws := by
    rw [exec_write_entry (i := asmWriteMultipleRegisters D.base ws) rfl (asmWriteMultipleRegisters_wf D.base h1 h123 hwr) hform
      (by rw [show unitCount (asmWriteMultipleRegisters D.base ws) = ws.length from hq]; exact hres) (hq.trans hcount.symm) hwrite,
      asmWriteMultipleRegisters_vals D.base h123, map_ofNat_toNat]
  obtain ⟨t', ht', -, hrsp⟩ := exec_read_whole (i := .readHoldingRegisters D.base (BitVec.ofNat 16 ws.length)) (s := s') (e := e)
    (D := D) (us := ws) rfl ⟨by rw [hq]; exact h1, by rw [hq, hcfg, hrd]; exact h123.trans (by decide)⟩
    (by rw [unitCount, hq, hcfg]; exact hres) rfl (hq.trans hcount.symm) (htbl ▸ hentry) hcount.symm hhook
  exact ⟨t', ht', by rw [hrsp, normalPdu, hq]⟩

/-- Settles O54: the write leaves the bits in the entry, and the whole read returns them packed. -/
theorem readAfterWriteReturnsTheWrittenCoils : Obligations.ReadAfterWriteReturnsTheWrittenCoils := by
  intro s t s' e D bs hhook hform h1 h1968 hwr hrd hres hcount hwrite htbl hcfg
  have hq : (BitVec.ofNat 16 bs.length).toNat = bs.length := toNat_ofNat_of_le h1968 (by decide)
  have hentry : t.tbl[e]? = some (bitUnits bs) := by
    rw [exec_write_entry (i := asmWriteMultipleCoils D.base bs) rfl (asmWriteMultipleCoils_wf D.base h1 h1968 hwr) hform
      (by rw [show unitCount (asmWriteMultipleCoils D.base bs) = bs.length from hq]; exact hres) (hq.trans hcount.symm) hwrite,
      asmWriteMultipleCoils_vals D.base h1968, ← bitUnits_toNat, map_ofNat_toNat]
  obtain ⟨t', ht', -, hrsp⟩ := exec_read_whole (i := .readCoils D.base (BitVec.ofNat 16 bs.length)) (s := s') (e := e)
    (D := D) (us := bitUnits bs) rfl ⟨by rw [hq]; exact h1, by rw [hq, hcfg, hrd]; exact h1968.trans (by decide)⟩
    (by rw [unitCount, hq, hcfg]; exact hres) rfl (hq.trans hcount.symm) (htbl ▸ hentry)
    (by rw [List.length_map]; exact hcount.symm) hhook
  exact ⟨t', ht', by rw [hrsp, normalPdu, hq]⟩

/-- Settles O55: a value of the entry's shape is stored as it is, and the response is built from the table after it. -/
theorem onReadRefreshReplacesTheWholeEntry : Obligations.OnReadRefreshReplacesTheWholeEntry := by
  intro i s e D us hk hw hres he hslice hhook hans hlen hbits
  have hfits : ∀ u ∈ us, unitFits D.space u = true := by
    intro u hu
    cases hb : D.space.isBit with
    | false => simp [unitFits, hb]
    | true => simpa [unitFits, hb] using hbits u hu hb
  have htbl : tableAfterRead e D s = s.tbl.set e us := by
    simp only [tableAfterRead, hhook, hans, fitUnits_eq hlen hfits]
  have hget : (tableAfterRead e D s)[e]? = some us := by rw [htbl, List.getElem?_set_self he]
  refine ⟨_, exec_read_done hk hw hres (.inl hslice) (by simp [hans]), hget, if_pos hhook, ?_⟩
  rw [respond_rsp, List.getD_eq_getElem?_getD, hget, Option.getD_some]

/-! ### What a request's meaning depends on (20_memory.md R79; 41_dispatch.md R139) -/

/-- The configuration alone decides whether a request raises, and which exception: else it is well-formed and resolves, a
write to an entry of its count. -/
theorem exec_raises_or_resolves (i : Instr) (c : Cfg) :
    (∃ x, ∀ s : State, s.cfg = c → ∃ u, Working s u ∧ exec i s = .next (takeException x u)) ∨
    (i.wf c.limits ∧ ∃ e D, resolve c.regmap (fcMap i).1 (startAddr i).toNat (unitCount i) = some (e, D) ∧
      ((fcMap i).2 = .write → unitCount i = D.count)) := by
  by_cases hw : i.wf c.limits
  swap
  · exact .inl ⟨_, fun s hs => exec_illFormed (hs ▸ hw)⟩
  cases hres : resolve c.regmap (fcMap i).1 (startAddr i).toNat (unitCount i) with
  | none =>
    cases hdef : spaceDefined c.regmap (fcMap i).1 with
    | false => exact .inl ⟨_, fun s hs => exec_undefinedSpace (hs ▸ hw) (hs ▸ hdef)⟩
    | true => exact .inl ⟨_, fun s hs => exec_unresolved (hs ▸ hw) (hs ▸ hdef) (hs ▸ hres)⟩
  | some x =>
    obtain ⟨e, D⟩ := x
    by_cases hlen : (fcMap i).2 = .write → unitCount i = D.count
    · exact .inr ⟨hw, e, D, rfl, hlen⟩
    · rw [Classical.not_imp] at hlen
      obtain ⟨hk, hlen⟩ := hlen
      exact .inl ⟨_, fun s hs => exec_wrongCount hk (hs ▸ hw) (hs ▸ hres) hlen⟩

/-- A read appends its handshake, if any, to what was seen before (20_memory.md R62). -/
theorem traceAfterRead_eq (sp : Space) (a : Word) (D : Entry) (s : State) :
    traceAfterRead sp a D s = s.trace ++ if D.hasOnRead then [.hookRead sp a] else [] := by
  unfold traceAfterRead
  split <;> simp

/-- A write appends its handshake, if any, to what was seen before (20_memory.md R63). -/
theorem traceAfterWrite_eq (sp : Space) (a : Word) (vals : List Nat) (D : Entry) (s : State) :
    traceAfterWrite sp a vals D s = s.trace ++ if D.hasOnWrite then [.hookWrite sp a vals] else [] := by
  unfold traceAfterWrite
  split <;> simp

/-- A read that answers a next state was not refused, and its hook answered. -/
theorem exec_read_answers {i : Instr} {s t : State} {e : Nat} {D : Entry} (hk : (fcMap i).2 = .read) (hw : i.wf s.cfg.limits)
    (hres : resolve s.cfg.regmap (fcMap i).1 (startAddr i).toNat (unitCount i) = some (e, D)) (h : exec i s = .next t) :
    (s.cfg.limits.subrangeRead = .slice ∨ (startAddr i = D.base ∧ unitCount i = D.count)) ∧
    (D.hasOnRead = true → s.env.onRead ≠ .blocks) := by
  have hsub : s.cfg.limits.subrangeRead = .slice ∨ (startAddr i = D.base ∧ unitCount i = D.count) := by
    cases hm : s.cfg.limits.subrangeRead with
    | slice => exact .inl rfl
    | refuse =>
      by_contra hpart
      rw [exec_read_refused (D := D) hk hw hres hm (by tauto)] at h
      cases h
  refine ⟨hsub, fun hr hb => ?_⟩
  rw [exec_read_blocked hk hw hres hsub hr hb] at h
  cases h

/-- Settles O57: the configuration decides the checks; past them a read is its entry after the refresh and a write its
decoded values, the same from both states. -/
theorem requestMeaningDependsOnlyOnItsBytesConfigurationAndTable :
    Obligations.RequestMeaningDependsOnlyOnItsBytesConfigurationAndTable := by
  intro i s s' t hcfg htbl hfc hread hwrite h
  rcases exec_raises_or_resolves i s.cfg with ⟨x, hx⟩ | ⟨hw, e, D, hres, hcount⟩
  · obtain ⟨u, hu, he⟩ := hx s rfl
    obtain ⟨u', hu', he'⟩ := hx s' hcfg
    rw [he] at h
    cases h
    obtain ⟨-, hut, -, -, -, -, -, hutr, hufc, -⟩ := hu.agrees
    obtain ⟨-, hut', -, -, -, -, -, hutr', hufc', -⟩ := hu'.agrees
    refine ⟨_, he', ?_, ?_, ?_⟩
    · rw [takeException_rsp, takeException_rsp, hufc, hufc', hfc]
    · rw [takeException_tbl, takeException_tbl, hut, hut', htbl]
    · rw [takeException_trace, takeException_trace, hutr, hutr', List.drop_length, List.drop_length]
  · have hw' : i.wf s'.cfg.limits := hcfg ▸ hw
    have hres' : resolve s'.cfg.regmap (fcMap i).1 (startAddr i).toNat (unitCount i) = some (e, D) := hcfg ▸ hres
    cases hk : (fcMap i).2 with
    | read =>
      obtain ⟨hsub, hhook⟩ := exec_read_answers hk hw hres h
      have htab : tableAfterRead e D s' = tableAfterRead e D s := by simp only [tableAfterRead, htbl, hread]
      rw [exec_read_done hk hw hres hsub hhook] at h
      cases h
      refine ⟨_, exec_read_done hk hw' hres' (hcfg ▸ hsub) (hread ▸ hhook), ?_, htab, ?_⟩
      · rw [respond_rsp, respond_rsp, htab]
      · simp only [respond_trace, traceAfterRead_eq, List.drop_left]
    | write =>
      have hlen := hcount hk
      have hhook : D.hasOnWrite = true → s.env.onWrite ≠ .blocks := by
        intro hr hb
        rw [exec_write_blocked hk hw hres hlen hr hb] at h
        cases h
      rw [exec_write_done hk hw hres hlen hhook] at h
      cases h
      refine ⟨_, exec_write_done hk hw' hres' hlen (hwrite ▸ hhook), rfl, ?_, ?_⟩
      · rw [respond_tbl, respond_tbl, htbl]
      · simp only [respond_trace, traceAfterWrite_eq, List.drop_left]

end Sys2Proof.Machine
end

section
/-! Accepted frames, from the poll that receives them to the reply (41_dispatch.md R134; 40_framing.md R112 to R117). -/

namespace Sys2Proof.Machine

/-! ### The reply -/

/-- With RTU the end of a poll puts the response on the bus and returns to `Idle` (40_framing.md R113). -/
theorem finishPoll_rtu {u : State} (ht : u.cfg.transport = .rtu) :
    finishPoll u = { u with
      disp := .idle, rsp := [], req := { u.req with valid := false }, mux := { u.mux with inflight := none },
      trace := u.trace ++ [.send .bus (rtuFrame u.req.unit u.rsp) u.env.sendOk] } := by
  simp [finishPoll, transmit, ht, returnToIdle, sendRTU, emit]

/-- With TCP the end of a poll sends the response to the slot in flight, active already, and returns to `Idle` (40_framing.md R117). -/
theorem finishPoll_tcp {u : State} {j : Nat} (ht : u.cfg.transport = .tcp) (hj : u.mux.inflight = some j)
    (hactive : u.mux.slots.modify j (fun c => { c with lastActivity := u.now }) = u.mux.slots) :
    finishPoll u = { u with
      disp := .idle, rsp := [], req := { u.req with valid := false }, mux := { u.mux with inflight := none },
      trace := u.trace ++ [.send (.slot j) (mbapFrame u.req.tid u.req.unit u.rsp) u.env.sendOk] } := by
  cases hok : u.env.sendOk with
  | false => simp [finishPoll, transmit, ht, sendMBAP, hj, hok, returnToIdle, emit]
  | true => simp [finishPoll, transmit, ht, sendMBAP, hj, hok, returnToIdle, emit, touchSlot, modifySlot, hactive]

/-! ### The latched request -/

/-- The state in which a TCP request is latched, written out (40_framing.md R116, R120). -/
theorem latchMBAP_afterLink (f : List Byte) (s : State) :
    latchMBAP f s.mux.cursor (markConnected s.mux.cursor (afterLink s)) = { s with
      req := { s.req with valid := true, peer := .slot s.mux.cursor, unit := f.getD 6 0, tid := be16 f 0, pdu := mbapPdu f,
                          fc := f.getD 7 0 },
      mux := { cursor := (s.mux.cursor + 1) % s.cfg.maxConn
               slots := s.mux.slots.modify s.mux.cursor (fun c => { c with live := .connected, lastActivity := s.now })
               inflight := some s.mux.cursor
               linkDownSince := linkDownAfter s.env.linkUp s.now s.mux.linkDownSince } } := by
  simp only [latchMBAP, touchSlot, modifySlot, markConnected, afterLink, noteLink, advanceCursor, List.modify_modify_eq]
  rfl

/-- A latched TCP request has made its slot active now, so its reply changes no slot. -/
theorem latchMBAP_active (f : List Byte) (i : Nat) (s : State) :
    (latchMBAP f i s).mux.slots.modify i (fun c => { c with lastActivity := s.now }) = (latchMBAP f i s).mux.slots := by
  rw [latchMBAP_mux, List.modify_modify_eq]
  rfl

/-- The state in which a poll handles an accepted RTU frame (40_framing.md R112). -/
abbrev latchedRTU (f : List Byte) (s : State) : State := latchRTU f (enter .awaitRequest s)

/-- The state in which a poll handles an accepted TCP frame (40_framing.md R116, R120). -/
abbrev latchedMBAP (f : List Byte) (s : State) : State :=
  latchMBAP f s.mux.cursor (markConnected s.mux.cursor (afterLink (enter .awaitRequest s)))

/-- A poll that receives an accepted RTU frame handles the request latched from it. -/
theorem poll_latchRTU {s : State} {f : List Byte} (ht : s.cfg.transport = .rtu) (hrx : s.env.rx = .bytes f)
    (h : rtuDrop s.cfg f = none) : poll s = finishHandled (handle (latchedRTU f s)) := by
  have hfront := frontEnd_latchRTU (s := enter .awaitRequest s) ht hrx h
  rw [poll, hfront]
  exact if_pos rfl

/-- A poll that receives an accepted TCP frame handles the request latched from it. -/
theorem poll_latchMBAP {s : State} {f : List Byte} (ht : s.cfg.transport = .tcp)
    (hl : s.env.linkUp = true ∨ s.now - s.mux.linkDownSince.getD s.now < s.cfg.linkCloseMs) (hs : s.env.sock = .connected)
    (hrx : s.env.rx = .bytes f) (h : mbapDrop s.cfg f = none) :
    poll s = finishHandled (handle (latchedMBAP f s)) := by
  have hfront := frontEnd_latchMBAP (s := enter .awaitRequest s) ht hl hs hrx h
  rw [poll, hfront]
  exact if_pos rfl

theorem handle_instr {s : State} {i : Instr} (h : decode s.req.pdu = .instr i) : handle s = exec i s := by
  simp [handle, h]

theorem handle_raise {s : State} {c : ExceptionCode} (h : decode s.req.pdu = .raise c) :
    handle s = .next (takeException c s) := by
  simp [handle, h]

/-! ### Whole steps -/

/-- The end of an executed RTU request: the unit and the outcome of the send are those of the state it was executed in. -/
theorem exec_finishPoll_rtu {i : Instr} {r u : State} (he : exec i r = .next u) (ht : r.cfg.transport = .rtu) :
    finishPoll u = { u with
      disp := .idle, rsp := [], req := { u.req with valid := false }, mux := { u.mux with inflight := none },
      trace := u.trace ++ [.send .bus (rtuFrame r.req.unit u.rsp) r.env.sendOk] } := by
  obtain ⟨hcfg, -, -, henv, -, -, -, -, -, hunit, -⟩ := exec_frame he
  rw [← hcfg] at ht
  rw [finishPoll_rtu ht, hunit, henv]

/-- The end of an executed TCP request, likewise. -/
theorem exec_finishPoll_tcp {i : Instr} {r u : State} {j : Nat} (he : exec i r = .next u)
    (ht : r.cfg.transport = .tcp) (hj : r.mux.inflight = some j)
    (hactive : r.mux.slots.modify j (fun c => { c with lastActivity := r.now }) = r.mux.slots) :
    finishPoll u = { u with
      disp := .idle, rsp := [], req := { u.req with valid := false }, mux := { u.mux with inflight := none },
      trace := u.trace ++ [.send (.slot j) (mbapFrame r.req.tid r.req.unit u.rsp) r.env.sendOk] } := by
  obtain ⟨hcfg, hmux, -, henv, hnow, -, -, -, -, hunit, htid, -⟩ := exec_frame he
  rw [← hcfg] at ht
  rw [← hmux] at hj hactive
  rw [← hnow] at hactive
  rw [finishPoll_tcp ht hj hactive, hunit, htid, henv]

/-- Settles O17: the front end latches the frame, and the reply goes to the bus with the unit of the latch. -/
theorem rtuStepRunsTheDecodedInstruction : Obligations.RtuStepRunsTheDecodedInstruction := by
  intro s p rest f i ht hp hrx hlen hcrc hmax hunit hdec
  have hd : rtuDrop s.cfg f = none := rtuDrop_none.mpr ⟨hlen, hcrc, hmax, hunit⟩
  rw [step_poll hp, poll_latchRTU (s := takeInputs p { s with pending := rest }) ht hrx hd, handle_instr hdec]
  split
  · next u he =>
    refine (congrArg finishHandled he).trans ?_
    rw [finishHandled, exec_finishPoll_rtu he ht]
    rfl
  · next r he => exact congrArg finishHandled he
  · next r he => exact congrArg finishHandled he

/-- Settles O18: the front end latches the frame, and the reply goes to the slot in flight, which the latch has made
active already, so that the send changes no slot. -/
theorem tcpStepRunsTheDecodedInstruction : Obligations.TcpStepRunsTheDecodedInstruction := by
  intro s p rest f i ht hp hl hs hrx hlen hproto h2 hmax hall htrail hunit hdec
  have hd : mbapDrop s.cfg f = none := mbapDrop_none.mpr ⟨hlen, hproto, h2, hmax, hall, htrail, hunit⟩
  have hlatch := latchMBAP_afterLink f (enter .awaitRequest (takeInputs p { s with pending := rest }))
  rw [step_poll hp, poll_latchMBAP (s := takeInputs p { s with pending := rest }) ht hl hs hrx hd, ← linkDownAfter_eq]
  refine (congrArg (fun r => finishHandled (handle r)) hlatch).trans ?_
  rw [handle_instr hdec]
  split
  · next u he =>
    refine (congrArg finishHandled he).trans ?_
    rw [finishHandled, exec_finishPoll_tcp he ht rfl (by rw [List.modify_modify_eq]; rfl)]
    rfl
  · next r he => exact congrArg finishHandled he
  · next r he => exact congrArg finishHandled he

/-! ### PDUs that the decoder rejects -/

/-- A poll that receives an accepted RTU frame that the decoder rejects answers it with the exception, and touches nothing
(60_exceptions.md R160). -/
theorem poll_raise_rtu {s : State} {f : List Byte} {c : ExceptionCode} (ht : s.cfg.transport = .rtu)
    (hrx : s.env.rx = .bytes f) (hd : rtuDrop s.cfg f = none) (hdec : decode (rtuPdu f) = .raise c) :
    ∃ t, poll s = .next t ∧ t.tbl = s.tbl ∧ t.disp = .idle ∧
      t.trace = s.trace ++ [.send .bus (rtuFrame (f.getD 0 0) [f.getD 1 0 ||| 0x80, c.toByte]) s.env.sendOk] := by
  refine ⟨finishPoll (takeException c (latchedRTU f s)), ?_, ?_⟩
  · rw [poll_latchRTU ht hrx hd, handle_raise hdec, finishHandled]
  · rw [finishPoll_rtu (u := takeException c (latchedRTU f s)) ht]
    exact ⟨rfl, rfl, rfl⟩

/-- A poll that receives an accepted TCP frame that the decoder rejects answers it likewise, to the slot it arrived on
(40_framing.md R117). -/
theorem poll_raise_tcp {s : State} {f : List Byte} {c : ExceptionCode} (ht : s.cfg.transport = .tcp)
    (hl : s.env.linkUp = true ∨ s.now - s.mux.linkDownSince.getD s.now < s.cfg.linkCloseMs) (hs : s.env.sock = .connected)
    (hrx : s.env.rx = .bytes f) (hd : mbapDrop s.cfg f = none) (hdec : decode (mbapPdu f) = .raise c) :
    ∃ t, poll s = .next t ∧ t.tbl = s.tbl ∧ t.disp = .idle ∧
      t.trace = s.trace ++
        [.send (.slot s.mux.cursor) (mbapFrame (be16 f 0) (f.getD 6 0) [f.getD 7 0 ||| 0x80, c.toByte]) s.env.sendOk] := by
  refine ⟨finishPoll (takeException c (latchedMBAP f s)), ?_, ?_⟩
  · rw [poll_latchMBAP ht hl hs hrx hd, handle_raise hdec, finishHandled]
  · rw [finishPoll_tcp (u := takeException c (latchedMBAP f s)) ht rfl (latchMBAP_active f s.mux.cursor _)]
    exact ⟨rfl, rfl, rfl⟩

/-- Settles O19: an unsupported function code is rejected whatever follows it, and bit 7 of one that has it set stays. -/
theorem unsupportedFunctionCodeIsAnsweredIllegalFunction : Obligations.UnsupportedFunctionCodeIsAnsweredIllegalFunction := by
  intro s p rest f fc hfc hp hrx
  refine ⟨fun ht hd hf => ?_, fun ht hl hs hd hf => ?_, fun hmsb => ?_⟩
  · obtain ⟨r, hpdu, -⟩ := rtuPdu_cons hd
    subst hf
    rw [step_poll hp]
    exact poll_raise_rtu (s := takeInputs p { s with pending := rest }) ht hrx hd (hpdu ▸ decode_of_unsupported r hfc)
  · obtain ⟨r, hpdu, -⟩ := mbapPdu_cons hd
    subst hf
    rw [step_poll hp]
    exact poll_raise_tcp (s := takeInputs p { s with pending := rest }) ht hl hs hrx hd (hpdu ▸ decode_of_unsupported r hfc)
  · revert hmsb
    clear hfc
    revert fc
    decide

/-- Settles O58: the decoder's length check, and its exception answered on either transport. -/
theorem wrongLengthPduIsAnsweredIllegalDataValue : Obligations.WrongLengthPduIsAnsweredIllegalDataValue := by
  refine ⟨decode_raise_illegalDataValue, fun s p rest f fc hp hrx => ⟨fun ht hd hf hlen => ?_, fun ht hl hs hd hf hlen => ?_⟩⟩
  · obtain ⟨r, hpdu, hr⟩ := rtuPdu_cons hd
    subst hf
    rw [← hr] at hlen
    rw [step_poll hp]
    exact poll_raise_rtu (s := takeInputs p { s with pending := rest }) ht hrx hd (hpdu ▸ (decode_raise_illegalDataValue _ r).mpr hlen)
  · obtain ⟨r, hpdu, hr⟩ := mbapPdu_cons hd
    subst hf
    rw [← hr] at hlen
    rw [step_poll hp]
    exact poll_raise_tcp (s := takeInputs p { s with pending := rest }) ht hl hs hrx hd (hpdu ▸ (decode_raise_illegalDataValue _ r).mpr hlen)

end Sys2Proof.Machine
end

section
/-! Polls without a request: dropped frames and the recovery of sockets (60_exceptions.md R164; 40_framing.md R120 to R124). -/

namespace Sys2Proof.Machine

/-! ### Dropped frames -/

/-- With RTU a receive that delivers no accepted frame leaves the state as it is (40_framing.md R110, R112). -/
theorem frontEnd_rtu_dropped {s : State} (ht : s.cfg.transport = .rtu)
    (h : ∀ f, s.env.rx = .bytes f → rtuDrop s.cfg f ≠ none) : frontEnd s = s := by
  rw [show frontEnd s = frontEndRTU s by simp [frontEnd, ht]]
  exact (frontEndRTU_cases s).resolve_right fun ⟨f, hrx, hd, _⟩ => h f hrx hd

/-- With TCP a receive on a connected socket that delivers no accepted frame marks the slot, and no more (40_framing.md R124). -/
theorem frontEnd_tcp_dropped {s : State} (ht : s.cfg.transport = .tcp)
    (hl : s.env.linkUp = true ∨ s.now - s.mux.linkDownSince.getD s.now < s.cfg.linkCloseMs) (hs : s.env.sock = .connected)
    (h : ∀ f, s.env.rx = .bytes f → mbapDrop s.cfg f ≠ none) : frontEnd s = markConnected s.mux.cursor (afterLink s) := by
  have hx := linkExpired_afterLink_eq_false hl
  rw [frontEnd_eq_pollTCP ht]
  rcases pollTCP_cases s with ⟨hexpired, -⟩ | ⟨-, ⟨hclosed, -⟩ | ⟨hopen, -⟩ | ⟨-, -, hmark⟩ | ⟨f, -, hrx, hd, -⟩⟩
  · simp [hx] at hexpired
  · simp [hs] at hclosed
  · simp [hs] at hopen
  · exact hmark
  · exact absurd hd (h f hrx)

/-- The RTU receives that a poll drops: each breaks one of the conditions of an accepted frame (40_framing.md R112). -/
theorem rtu_dropped {c : Cfg} {rx : Rx}
    (h : rx = .timeout ∨ rx = .empty ∨ rx = .ioError ∨ ∃ f, rx = .bytes f ∧
      (f.length < 4 ∨ f.drop (f.length - 2) ≠ u16le (crc16 (f.take (f.length - 2))) ∨ c.limits.maxPdu < f.length - 3 ∨
        ∃ us, c.unitAllow = some us ∧ f.getD 0 0 ∉ us)) : ∀ f, rx = .bytes f → rtuDrop c f ≠ none := by
  rintro f rfl hd
  obtain ⟨hlen, hcrc, hmax, hunit⟩ := rtuDrop_none.mp hd
  rcases h with h | h | h | ⟨f', h, hbad⟩
  · cases h
  · cases h
  · cases h
  · cases h
    rcases hbad with hshort | hwrong | hlong | ⟨us, hus, hforeign⟩
    · omega
    · exact hwrong hcrc
    · omega
    · exact hforeign (hunit us hus)

/-- The TCP receives that a poll drops: each breaks one of the conditions of an accepted frame (40_framing.md R116). -/
theorem mbap_dropped {c : Cfg} {rx : Rx}
    (h : rx = .timeout ∨ rx = .empty ∨ rx = .ioError ∨ ∃ f, rx = .bytes f ∧
      (f.length < 7 ∨ be16 f 2 ≠ 0 ∨ (be16 f 4).toNat < 2 ∨ c.limits.maxPdu < (be16 f 4).toNat - 1 ∨
        f.length < 6 + (be16 f 4).toNat ∨ (6 + (be16 f 4).toNat < f.length ∧ c.limits.tcpTrailing = .drop) ∨
        ∃ us, c.unitAllow = some us ∧ f.getD 6 0 ∉ us)) : ∀ f, rx = .bytes f → mbapDrop c f ≠ none := by
  rintro f rfl hd
  obtain ⟨hlen, hproto, h2, hmax, hall, htrail, hunit⟩ := mbapDrop_none.mp hd
  rcases h with h | h | h | ⟨f', h, hbad⟩
  · cases h
  · cases h
  · cases h
  · cases h
    rcases hbad with hshort | hwrong | hmalformed | hlong | hpartial | ⟨hmore, hdrop⟩ | ⟨us, hus, hforeign⟩
    · omega
    · exact hwrong hproto
    · omega
    · omega
    · omega
    · have := htrail hdrop
      omega
    · exact hforeign (hunit us hus)

/-- Settles O20: no accepted frame, no latch, so the poll goes back to `Idle` from what the front end left. -/
theorem droppedFrameLeavesNoTrace : Obligations.DroppedFrameLeavesNoTrace := by
  rintro s p rest ⟨hidle, hvalid, -, hinflight⟩ hp
  refine ⟨fun ht hrx => ?_, fun ht hl hs hrx => ?_⟩
  · have hfront := frontEnd_rtu_dropped (s := enter .awaitRequest (takeInputs p { s with pending := rest })) ht
      (rtu_dropped hrx)
    rw [step_poll hp, poll_noRequest (by rw [hfront]; exact hvalid), hfront, ← hidle]
    rfl
  · have hfront := frontEnd_tcp_dropped (s := enter .awaitRequest (takeInputs p { s with pending := rest })) ht hl hs
      (mbap_dropped hrx)
    rw [step_poll hp, poll_noRequest (by rw [hfront]; exact hvalid), hfront, ← linkDownAfter_eq, ← hidle, ← hinflight]
    rfl

/-! ### Recovery -/

/-- With TCP and the link down for the close time, the front end force-closes the inspected slot (40_framing.md R121). -/
theorem frontEnd_linkExpired {s : State} (ht : s.cfg.transport = .tcp) (hup : s.env.linkUp = false)
    (hdown : s.cfg.linkCloseMs ≤ s.now - s.mux.linkDownSince.getD s.now) :
    frontEnd s = forceCloseSlot s.mux.cursor (afterLink s) := by
  have hx : linkExpired (afterLink s) = true := by
    rw [linkExpired_afterLink]
    simp [hup, hdown]
  rw [frontEnd_eq_pollTCP ht]
  simpa [hx] using pollTCP_cases s

/-- Settles O30: the front end force-closes whatever the socket's status, so no request is latched. -/
theorem linkDownForTheCloseTimeForceCloses : Obligations.LinkDownForTheCloseTimeForceCloses := by
  rintro s p rest since ht ⟨hidle, hvalid, -, -⟩ hp hup hsince hdown
  have hfront := frontEnd_linkExpired (s := enter .awaitRequest (takeInputs p { s with pending := rest })) ht hup
    (by simpa [hsince] using hdown)
  have hlink : linkDownAfter p.linkUp (s.now + p.elapsed) s.mux.linkDownSince = s.mux.linkDownSince := by
    simp [linkDownAfter, hup, hsince]
  rw [step_poll hp, poll_noRequest (by rw [hfront]; exact hvalid), hfront, ← hidle]
  simp only [forceCloseSlot, modifySlot, emit, afterLink, noteLink, advanceCursor, enter, takeInputs, hlink]

/-- With TCP and a link not expired, the front end replaces a socket confirmed closed (40_framing.md R122). -/
theorem frontEnd_notConnectedClosed {s : State} (ht : s.cfg.transport = .tcp)
    (hl : s.env.linkUp = true ∨ s.now - s.mux.linkDownSince.getD s.now < s.cfg.linkCloseMs)
    (hs : s.env.sock = .notConnectedClosed) : frontEnd s = replaceSlot s.mux.cursor (afterLink s) := by
  have hx := linkExpired_afterLink_eq_false hl
  rw [frontEnd_eq_pollTCP ht]
  simpa [hx, hs] using pollTCP_cases s

/-- Settles O31: the front end only replaces the slot, so no request is latched. -/
theorem confirmedClosedSocketIsReplaced : Obligations.ConfirmedClosedSocketIsReplaced := by
  rintro s p rest ht ⟨hidle, hvalid, -, -⟩ hp hl hs
  have hfront := frontEnd_notConnectedClosed (s := enter .awaitRequest (takeInputs p { s with pending := rest })) ht hl hs
  rw [step_poll hp, poll_noRequest (by rw [hfront]; exact hvalid), hfront, ← linkDownAfter_eq, ← hidle]
  rfl

end Sys2Proof.Machine
end

section
/-! What the outside sees of a poll (41_dispatch.md R131; 20_memory.md R76; 40_framing.md R113 to R118). -/

namespace Sys2Proof.Machine

/-- What a poll does before its reply: at most one action, and no transmit (20_memory.md R76). -/
def BeforeReply (as : List Action) : Prop := as.length ≤ 1 ∧ ∀ a ∈ as, a.isSend = false

theorem beforeReply_nil : BeforeReply [] := ⟨Nat.zero_le _, nofun⟩

theorem beforeReply_singleton {a : Action} (h : a.isSend = false) : BeforeReply [a] :=
  ⟨le_rfl, fun _ hb => (List.mem_singleton.mp hb) ▸ h⟩

theorem beforeReply_ite {b : Bool} {a : Action} (h : a.isSend = false) : BeforeReply (if b then [a] else []) := by
  cases b with
  | false => exact beforeReply_nil
  | true => exact beforeReply_singleton h

/-- The check of the transport finds nothing wrong with a received byte string (40_framing.md R112, R116). -/
def Accepts (c : Cfg) (f : List Byte) : Prop :=
  match c.transport with
  | .rtu => rtuDrop c f = none
  | .tcp => mbapDrop c f = none

/-- The transmit of a response to the received byte string `f` (40_framing.md R113, R117). -/
def replyTo (s : State) (f rsp : List Byte) : Action :=
  match s.cfg.transport with
  | .rtu => .send .bus (rtuFrame (f.getD 0 0) rsp) s.env.sendOk
  | .tcp => .send (.slot s.mux.cursor) (mbapFrame (be16 f 0) (f.getD 6 0) rsp) s.env.sendOk

theorem replyTo_rtu {s : State} (ht : s.cfg.transport = .rtu) (f rsp : List Byte) :
    replyTo s f rsp = .send .bus (rtuFrame (f.getD 0 0) rsp) s.env.sendOk := by
  simp [replyTo, ht]

theorem replyTo_tcp {s : State} (ht : s.cfg.transport = .tcp) (f rsp : List Byte) :
    replyTo s f rsp = .send (.slot s.mux.cursor) (mbapFrame (be16 f 0) (f.getD 6 0) rsp) s.env.sendOk := by
  simp [replyTo, ht]

theorem replyTo_isSend (s : State) (f rsp : List Byte) : (replyTo s f rsp).isSend = true := by
  unfold replyTo
  cases s.cfg.transport <;> rfl

/-! ### The parts of a poll -/

/-- A front end asks for at most one recovery, and sends nothing (40_framing.md R121, R122). -/
theorem frontEnd_trace (s : State) : ∃ before, BeforeReply before ∧ (frontEnd s).trace = s.trace ++ before := by
  have hnone {t : State} (h : t.trace = s.trace) : ∃ before, BeforeReply before ∧ t.trace = s.trace ++ before :=
    ⟨[], beforeReply_nil, by rw [h, List.append_nil]⟩
  unfold frontEnd
  cases ht : s.cfg.transport with
  | rtu =>
    rcases frontEndRTU_cases s with h | ⟨f, -, -, h⟩ <;> rw [h]
    · exact hnone rfl
    · exact hnone rfl
  | tcp =>
    rcases pollTCP_cases s with ⟨-, h⟩ | ⟨-, ⟨-, h⟩ | ⟨-, h⟩ | ⟨-, -, h⟩ | ⟨f, -, -, -, h⟩⟩ <;> rw [h]
    · exact ⟨[.forceClose s.mux.cursor], beforeReply_singleton rfl, rfl⟩
    · exact ⟨[.replaceSocket s.mux.cursor], beforeReply_singleton rfl, rfl⟩
    · exact hnone rfl
    · exact hnone rfl
    · exact hnone rfl

/-- A front end that reports a request has latched an accepted byte string, and asked for nothing (40_framing.md R112, R116). -/
theorem frontEnd_request {s : State} (hv : s.req.valid = false) (h : (frontEnd s).req.valid = true) :
    ∃ f, s.env.rx = .bytes f ∧ Accepts s.cfg f ∧
      (s.cfg.transport = .rtu ∧ frontEnd s = latchRTU f s ∨
       s.cfg.transport = .tcp ∧ frontEnd s = latchMBAP f s.mux.cursor (markConnected s.mux.cursor (afterLink s))) := by
  unfold frontEnd Accepts at *
  cases ht : s.cfg.transport with
  | rtu =>
    simp only [ht] at h ⊢
    rcases frontEndRTU_cases s with hf | ⟨f, hrx, hd, hf⟩
    · rw [hf, hv] at h
      cases h
    · exact ⟨f, hrx, hd, .inl ⟨trivial, hf⟩⟩
  | tcp =>
    simp only [ht] at h ⊢
    rcases pollTCP_cases s with ⟨-, hf⟩ | ⟨-, ⟨-, hf⟩ | ⟨-, hf⟩ | ⟨-, -, hf⟩ | ⟨f, -, hrx, hd, hf⟩⟩
    · simp [hf, afterLink, hv] at h
    · simp [hf, afterLink, hv] at h
    · simp [hf, afterLink, hv] at h
    · simp [hf, afterLink, hv] at h
    · exact ⟨f, hrx, hd, .inr ⟨trivial, hf⟩⟩

/-- A request makes at most one handshake, and sends nothing (20_memory.md R62, R63, R76). -/
theorem exec_trace {i : Instr} {s t : State} (h : exec i s = .next t) :
    ∃ before, BeforeReply before ∧ t.trace = s.trace ++ before := by
  have hend := exec_ending i s
  rw [h] at hend
  cases hend with
  | raised c u hu =>
    obtain ⟨-, -, -, -, -, -, -, htrace, -⟩ := hu.agrees
    exact ⟨[], beforeReply_nil, by simpa using htrace⟩
  | read => exact ⟨_, beforeReply_ite rfl, traceAfterRead_eq ..⟩
  | write => exact ⟨_, beforeReply_ite rfl, traceAfterWrite_eq ..⟩

theorem handle_trace {s t : State} (h : handle s = .next t) :
    ∃ before, BeforeReply before ∧ t.trace = s.trace ++ before := by
  rcases handle_cases s with ⟨c, -, hraise⟩ | ⟨i, -, hexec⟩
  · obtain rfl : takeException c s = t := by simpa [hraise] using h
    exact ⟨[], beforeReply_nil, (List.append_nil _).symm⟩
  · exact exec_trace (hexec ▸ h)

theorem finishPoll_trace_rtu {s : State} (ht : s.cfg.transport = .rtu) :
    (finishPoll s).trace = s.trace ++ [.send .bus (rtuFrame s.req.unit s.rsp) s.env.sendOk] := by
  rw [finishPoll_rtu ht]

theorem finishPoll_trace_tcp {s : State} {j : Nat} (ht : s.cfg.transport = .tcp) (hj : s.mux.inflight = some j) :
    (finishPoll s).trace = s.trace ++ [.send (.slot j) (mbapFrame s.req.tid s.req.unit s.rsp) s.env.sendOk] := by
  cases hok : s.env.sendOk <;> simp [finishPoll, transmit, ht, sendMBAP, hj, hok]

/-- With RTU a latched request ends in a transmit on the bus, to the unit of the latch (40_framing.md R113). -/
theorem handle_reply_rtu {r u : State} (h : handle r = .next u) (ht : r.cfg.transport = .rtu) :
    ∃ before, BeforeReply before ∧
      (finishPoll u).trace = r.trace ++ before ++ [.send .bus (rtuFrame r.req.unit u.rsp) r.env.sendOk] := by
  obtain ⟨before, hbefore, htrace⟩ := handle_trace h
  obtain ⟨hcfg, -, -, henv, -, -, -, -, -, hunit, -⟩ := handle_frame h
  rw [← hcfg] at ht
  exact ⟨before, hbefore, by rw [finishPoll_trace_rtu ht, htrace, hunit, henv]⟩

/-- With TCP a latched request ends in a transmit to the slot in flight, with the transaction id and the unit of the latch
(40_framing.md R117, R118). -/
theorem handle_reply_tcp {r u : State} {j : Nat} (h : handle r = .next u) (ht : r.cfg.transport = .tcp)
    (hj : r.mux.inflight = some j) :
    ∃ before, BeforeReply before ∧ (finishPoll u).trace =
      r.trace ++ before ++ [.send (.slot j) (mbapFrame r.req.tid r.req.unit u.rsp) r.env.sendOk] := by
  obtain ⟨before, hbefore, htrace⟩ := handle_trace h
  obtain ⟨hcfg, hmux, -, henv, -, -, -, -, -, hunit, htid, -⟩ := handle_frame h
  rw [← hcfg] at ht
  rw [← hmux] at hj
  exact ⟨before, hbefore, by rw [finishPoll_trace_tcp ht hj, htrace, hunit, htid, henv]⟩

/-! ### The whole poll -/

/-- What the outside sees of a poll that starts with no request: at most one action and no reply, or at most one handshake
and then the reply to the accepted byte string it received. -/
theorem poll_trace {s t : State} (hv : s.req.valid = false) (h : poll s = .next t) :
    ∃ before, BeforeReply before ∧
      (t.trace = s.trace ++ before ∨
       ∃ f rsp, s.env.rx = .bytes f ∧ Accepts s.cfg f ∧ t.trace = s.trace ++ before ++ [replyTo s f rsp]) := by
  rcases poll_cases s with ⟨-, hp⟩ | ⟨hreq, hp⟩ <;> rw [hp] at h
  · cases h
    obtain ⟨before, hbefore, htrace⟩ := frontEnd_trace (enter .awaitRequest s)
    exact ⟨before, hbefore, .inl htrace⟩
  · obtain ⟨u, hu, rfl⟩ := finishHandled_next h
    obtain ⟨f, hrx, hacc, ⟨ht, hf⟩ | ⟨ht, hf⟩⟩ := frontEnd_request (s := enter .awaitRequest s) hv hreq <;> rw [hf] at hu
    · obtain ⟨before, hbefore, htrace⟩ := handle_reply_rtu hu ht
      exact ⟨before, hbefore, .inr ⟨f, u.rsp, hrx, hacc, by rw [htrace, replyTo_rtu (s := s) ht]; rfl⟩⟩
    · obtain ⟨before, hbefore, htrace⟩ := handle_reply_tcp hu ht rfl
      exact ⟨before, hbefore, .inr ⟨f, u.rsp, hrx, hacc, by rw [htrace, replyTo_tcp (s := s) ht]; rfl⟩⟩

/-- Every transmit of a poll that starts with no request is its reply to an accepted byte string. -/
theorem poll_send {s t : State} {a : Action} (hv : s.req.valid = false) (h : poll s = .next t)
    (ha : a ∈ t.trace.drop s.trace.length) (hsend : a.isSend = true) :
    ∃ f rsp, s.env.rx = .bytes f ∧ Accepts s.cfg f ∧ a = replyTo s f rsp := by
  obtain ⟨before, ⟨-, hnone⟩, htrace | ⟨f, rsp, hrx, hacc, htrace⟩⟩ := poll_trace hv h
  · rw [htrace, List.drop_left] at ha
    simp [hnone a ha] at hsend
  · rw [htrace, List.append_assoc, List.drop_left, List.mem_append, List.mem_singleton] at ha
    rcases ha with ha | ha
    · simp [hnone a ha] at hsend
    · exact ⟨f, rsp, hrx, hacc, ha⟩

/-- Settles O22: `poll_trace`, the reply being the one transmit. -/
theorem pollSendsAtMostOneResponseAfterAtMostOneHook : Obligations.PollSendsAtMostOneResponseAfterAtMostOneHook := by
  rintro s t p rest ⟨-, hvalid, -, -⟩ hp h
  rw [step_poll hp] at h
  obtain ⟨before, ⟨hlen, hnone⟩, htrace | ⟨f, rsp, -, -, htrace⟩⟩ :=
    poll_trace (s := takeInputs p { s with pending := rest }) hvalid h
  · exact ⟨before, [], by simpa using htrace, hnone, hlen, Nat.zero_le _, nofun⟩
  · exact ⟨before, [_], htrace, hnone, hlen, le_rfl, fun a ha => List.mem_singleton.mp ha ▸ replyTo_isSend ..⟩

/-- Settles O26: the one transmit is the reply, whose header is built from the received one. -/
theorem tcpReplyCarriesTheRequestsTransactionId : Obligations.TcpReplyCarriesTheRequestsTransactionId := by
  rintro s t p rest peer g ok ht ⟨-, hvalid, -, -⟩ hp h hmem
  rw [step_poll hp] at h
  obtain ⟨f, rsp, hrx, hacc, hreply⟩ := poll_send (s := takeInputs p { s with pending := rest }) hvalid h hmem rfl
  rw [replyTo_tcp (s := takeInputs p { s with pending := rest }) ht] at hreply
  cases hreply
  have hd : mbapDrop s.cfg f = none := by simpa [Accepts, ht] using hacc
  exact ⟨f, hrx, hd, rfl, rfl, mbapFrame_tid .., mbapFrame_protocol .., rfl⟩

/-- Settles O27: the one transmit is the reply, built with the received unit and the CRC of its own bytes. -/
theorem rtuReplyGoesToTheBusWithTheRequestsUnit : Obligations.RtuReplyGoesToTheBusWithTheRequestsUnit := by
  rintro s t p rest peer g ok ht ⟨-, hvalid, -, -⟩ hp h hmem
  rw [step_poll hp] at h
  obtain ⟨f, rsp, hrx, hacc, hreply⟩ := poll_send (s := takeInputs p { s with pending := rest }) hvalid h hmem rfl
  rw [replyTo_rtu (s := takeInputs p { s with pending := rest }) ht] at hreply
  cases hreply
  have hd : rtuDrop s.cfg f = none := by simpa [Accepts, ht] using hacc
  exact ⟨f, hrx, hd, rfl, rfl, rfl, rtuFrame_crc ..⟩

end Sys2Proof.Machine
end
